-- ==== Sys2Proof/Word.lean ====
section
/-! DEFINITION. The word types of the machine: a byte, an address, an instruction word. -/

namespace Sys2Proof

/-- A byte: 8 bits, unsigned (R51, decision D13): log entry 19. -/
abbrev Byte := BitVec 8

/-- An address: 24 bits, unsigned (R50). -/
abbrev Addr := BitVec 24

/-- An instruction word `W` of 72 bits; bit 71 is the most significant bit of the byte at IP (R81). -/
abbrev InstrWord := BitVec 72

end Sys2Proof
end

