-- ==== Sys2Proof/Syntax.lean ====
section
/-! DEFINITION. The instruction set: the one row of the opcode table (R2, R88). -/

namespace Sys2Proof

/-- The instructions of the machine. There is one (R2): copy one byte and jump. -/
inductive Instr where
  /-- `BBJ A, B, C` (R102): the byte at `source` is copied to `dest`, then the machine goes on at `jump`. -/
  | bbj (source dest jump : Addr)
deriving DecidableEq, Repr

end Sys2Proof
end

