-- ==== Sys2Proof/WellFormed.lean ====
section
/-! DEFINITION. Which instructions are well formed: all of them (R82, R83).
The 24-bit bound of each field is in its type, and "No access can fall outside `M`" (R62), so there is no check an instruction could fail. -/

namespace Sys2Proof

/-- Every instruction is well formed: "three addresses, always in range" (R83), no alignment (R56), no reserved encoding. -/
def Instr.wellFormed : Instr → Bool
  | .bbj _ _ _ => true

end Sys2Proof
end

