-- ==== Sys2Proof/Decode.lean ====
section
/-! DEFINITION. Decoding and encoding of the one 9-byte format (R80 to R83), and the opcode table's numbering of its bits. -/

namespace Sys2Proof

/-- Why a list of bytes is no instruction. -/
inductive DecodeError where
  /-- Fewer than nine bytes were given; nine bytes of any value are an instruction (R83). -/
  | tooFewBytes
deriving DecidableEq, Repr

/-- The three fields of an instruction word: A = W[71:48], B = W[47:24], C = W[23:0] (R81). Total: R83. -/
def decodeWord (w : InstrWord) : Instr :=
  .bbj (w.extractLsb' 48 24) (w.extractLsb' 24 24) (w.extractLsb' 0 24)

/-- Nine bytes joined into a word, the first byte in the most significant place (R81). -/
def joinBytes (b0 b1 b2 b3 b4 b5 b6 b7 b8 : Byte) : InstrWord :=
  b0 ++ b1 ++ b2 ++ b3 ++ b4 ++ b5 ++ b6 ++ b7 ++ b8

/-- The decoder on bytes: it consumes exactly nine (R80, R85) and gives the rest back. -/
def decode : List Byte → Except DecodeError (Instr × List Byte)
  | b0 :: b1 :: b2 :: b3 :: b4 :: b5 :: b6 :: b7 :: b8 :: rest =>
    .ok (decodeWord (joinBytes b0 b1 b2 b3 b4 b5 b6 b7 b8), rest)
  | _ => .error .tooFewBytes

/-- A 24-bit value as its three bytes, most significant first (R52). -/
def addrBytes (a : Addr) : List Byte :=
  [a.extractLsb' 16 8, a.extractLsb' 8 8, a.extractLsb' 0 8]

/-- The nine bytes `BBJ a, b, c` assembles to (R86). -/
def encode : Instr → List Byte
  | .bbj a b c => addrBytes a ++ addrBytes b ++ addrBytes c

/-- The word of an instruction: `A || B || C` (R81). -/
def encodeWord : Instr → InstrWord
  | .bbj a b c => a ++ b ++ c

/-- The nine bytes of a word, the byte at the lowest address first: bit 71 is the most significant bit of that byte (R81). -/
def wordBytes (w : InstrWord) : List Byte :=
  [w.extractLsb' 64 8, w.extractLsb' 56 8, w.extractLsb' 48 8, w.extractLsb' 40 8, w.extractLsb' 32 8,
   w.extractLsb' 24 8, w.extractLsb' 16 8, w.extractLsb' 8 8, w.extractLsb' 0 8]

/-- The word whose bits below `nbits` are those of `w`, numbered as the opcode table numbers them, and whose other bits are 0.
The table has ONE word of 72 bits, so its bit 0 is the least significant bit of the last byte (R81, R88): DESIGN CHOICE, log entry 11. -/
def tableWord (nbits w : Nat) : InstrWord :=
  BitVec.ofNat 72 (w % 2 ^ nbits)

/-- What the decoder reads from an instruction whose bits are `w` in the opcode table's numbering. -/
def decodeTableWord (nbits w : Nat) : Option Instr :=
  match decode (wordBytes (tableWord nbits w)) with
  | .ok (i, _) => some i
  | .error _ => none

end Sys2Proof
end

