-- ==== Sys2Proof/Config.lean ====
section
/-! DEFINITION. What this hardware fixes (R6) and the two parameters the spec names (D2, D8). -/

namespace Sys2Proof

/-- The parameter `FETCH_OVERRUN` of D2: what a fetch does whose bytes pass the top of memory. -/
inductive FetchOverrun where
  /-- Byte addresses are taken modulo 2^24 (R55). -/
  | wrap
  /-- Such a fetch faults (the alternative of D2 and I4). -/
  | fault
deriving DecidableEq, Repr

/-- The parameter `AUDIO_SAMPLE_FORMAT` of the audio collaborator (R171, D8). No rule of the block reads it. -/
structure AudioSampleFormat where
  /-- Whether a sample byte is read as a signed number. -/
  signed : Bool
  /-- The sample byte that stands for silence. -/
  silence : Byte
deriving DecidableEq, Repr

namespace Config

/-- Bytes of memory: 2^24 (R6, R50). -/
def memBytes : Nat := 2 ^ 24

/-- Instructions executed in one frame, at most (R6, R133). -/
def budget : Nat := 65536

/-- Number of keys (R6, R32). -/
def numKeys : Nat := 16

/-- Rows, and columns, of the framebuffer (R6, R33). -/
def fbSide : Nat := 256

/-- Cells of the framebuffer: 256 x 256 (R33). -/
def fbBytes : Nat := 65536

/-- Samples of the audio block (R6, R34). -/
def audioBytes : Nat := 256

/-- This hardware's value of `FETCH_OVERRUN`: wrap (R6, R55). DESIGN CHOICE of the spec, D2: log entry 3. -/
def fetchOverrun : FetchOverrun := .wrap

/-- The working assumption of R171: 8-bit unsigned samples with 128 as silence. -/
def audioSampleFormat : AudioSampleFormat := ⟨false, 128⟩

/-- Frames a second: a contract of the host (R169), not of the block. -/
def frameRateHz : Nat := 60

/-- Samples a second: a contract of the audio collaborator (R171), not of the block. -/
def audioRateHz : Nat := 15360

end Config
end Sys2Proof
end

