-- ==== Sys2Proof/Machine/State.lean ====
section
/-! DEFINITION. The state of the block (R20), plain data; its commands and responses (R160); its stops; its reset value (R220). -/

namespace Sys2Proof.Machine

/-- Bytes by index in one canonical form: indexes strictly rising, no entry equal to 0x00, which is what an unlisted index reads as (R22, R33, R34). The form is a DESIGN CHOICE: log entry 17. -/
abbrev Cells := List Host.Cell

/-- The memory `M`: 2^24 bytes by address (R22). -/
abbrev Memory := Cells

/-- Why the instruction loop of a frame ended (R10). Not an output of the block (D15): log entry 14. -/
inductive EndReason where
  /-- The instruction about to execute was idle (R101). -/
  | idle
  /-- 65536 instructions have executed (R133). -/
  | budget
deriving DecidableEq, Repr

/-- What exists only while a frame runs (R21, R35, R36). -/
structure Frame where
  /-- `IP`, the address of the instruction about to execute (R35). -/
  ip : Addr
  /-- `N`, the instructions executed in this frame (R36). -/
  n : Nat
deriving DecidableEq, Repr

/-- Where the block stands in the step list of a frame (R130). -/
inductive Phase where
  /-- Between frames: no IP, no N (R21, R200). -/
  | waiting
  /-- Steps 3 and 4, the execution phase (R133). -/
  | executing (f : Frame)
  /-- The execution phase has ended; steps 5 and 6, the read-out, come next (R136, R137). -/
  | readOut (f : Frame) (why : EndReason)
deriving DecidableEq, Repr

/-- The six commands of the host (R160). -/
inductive Command where
  /-- `load(bytes)` (R161). -/
  | load (bytes : List Byte)
  /-- `reset()` (R221). -/
  | reset
  /-- `set_key(index, pressed)` (R163); any integer may be given as the index. -/
  | setKey (index : Int) (pressed : Bool)
  /-- `advance_frame()` (R130). -/
  | advanceFrame
  /-- `framebuffer()` (R165). -/
  | framebuffer
  /-- `audio_block()` (R166). -/
  | audioBlock
deriving DecidableEq, Repr

/-- The two error responses of host commands (R193). -/
inductive HostError where
  /-- `load` of more than 2^24 bytes. -/
  | invalidInputSize
  /-- `set_key` with an index outside 0..15. -/
  | invalidKeyIndex
deriving DecidableEq, Repr

/-- What a command returns to the host (R160). -/
inductive Response where
  /-- `Ok`. -/
  | ok
  /-- `Ok` with bytes read out (R165, R166). -/
  | okBytes (bytes : List Byte)
  /-- `Err(code)` (R193). -/
  | err (e : HostError)
deriving DecidableEq, Repr

/-- The state of the block: `M`, `K`, `FB`, `AB` and, while a frame runs, `IP` and `N` (R20); and the model's own record of the
host's commands and of the block's responses (DESIGN CHOICE, log entry 2). -/
structure State where
  /-- `M` (R22); the memory-mapped registers are its bytes 0 to 7 (R26). -/
  mem : Memory
  /-- `K[0..15]`, true when held (R32). -/
  keys : Vector Bool 16
  /-- `FB` (R33); `FB[y][x]` has index `y * 256 + x`. -/
  fb : Cells
  /-- `AB` (R34), by sample index. -/
  ab : Cells
  /-- Where the block stands in a frame, with `IP` and `N` (R35, R36). -/
  phase : Phase
  /-- The model's own: commands issued and not yet begun, oldest first. -/
  inbox : List Command
  /-- The model's own: responses returned, newest first. -/
  outbox : List Response
deriving DecidableEq, Repr

/-- Faults. The spec gives the block none (R190, R192). -/
inductive Fault where
  /-- A fetch whose nine bytes pass the top of memory, under the alternative `FETCH_OVERRUN = fault` (D2, I4).
  Raised by `fetch`; never under this hardware's value `wrap`. Safe: the model stops where the block may run. -/
  | fetchOverrun (ip : Addr)
deriving DecidableEq, Repr

/-- Refusals. -/
inductive Refusal where
  /-- An instruction with no meaning yet, rejected by name in `exec`. Safe: the model stops. No arm does so. -/
  | notModelled (mnemonic : String)
  /-- `exec` was asked to run an instruction while no execution phase runs, so there is no IP and no N (R21, R35).
  Raised by the meanings; `step` never asks so. DESIGN CHOICE, log entry 4. Safe: the model stops, and the block has no such behaviour. -/
  | noInstructionLoop
deriving DecidableEq, Repr

/-- The state after construction and after reset (R220): all zero, all keys released, between frames. `AB` zero is the spec's decision
D7 (log entry 7). The empty inbox and outbox are the model's, DESIGN CHOICE (log entry 2). -/
def State.reset : State where
  mem := []
  keys := Vector.replicate 16 false
  fb := []
  ab := []
  phase := .waiting
  inbox := []
  outbox := []

end Sys2Proof.Machine
end

