-- ==== Sys2Proof/Machine/Ops.lean ====
section
/-! DEFINITION. The named operations over cells, memory and state: reading and writing bytes, the fetch of an instruction,
the updates of State. The block takes no exceptions (R190, R192), so there is no exception entry and no return from one. -/

namespace Sys2Proof.Machine

/-! ### Cells -/

/-- The byte at an index; an unlisted index reads 0x00, the construction and reset value (R22, R33, R34). -/
def Cells.get : Cells → Nat → Byte
  | [], _ => 0#8
  | (j, w) :: rest, i => if i = j then w else Cells.get rest i

/-- Stores a byte at an index and keeps the canonical form: storing 0x00 removes the entry. -/
def Cells.put : Cells → Nat → Byte → Cells
  | [], i, v => if v = 0#8 then [] else [(i, v)]
  | (j, w) :: rest, i, v =>
    if i < j then (if v = 0#8 then (j, w) :: rest else (i, v) :: (j, w) :: rest)
    else if i = j then (if v = 0#8 then rest else (i, v) :: rest)
    else (j, w) :: Cells.put rest i v

/-- The canonical form, from index `lo` up and below `size`. -/
def Cells.wfFrom (size : Nat) : Nat → Cells → Bool
  | _, [] => true
  | lo, (j, w) :: rest => decide (lo ≤ j) && decide (j < size) && decide (w ≠ 0#8) && Cells.wfFrom size (j + 1) rest

/-- The canonical form of `size` bytes: indexes strictly rising and below `size`, no entry 0x00. -/
def Cells.wf (size : Nat) (c : Cells) : Bool :=
  Cells.wfFrom size 0 c

/-- The canonical form of the memory: addresses strictly rising and below 2^24 (R62), no entry 0x00. -/
def Memory.wf (m : Memory) : Bool :=
  Cells.wf Config.memBytes m

/-- The cells `base .. base + size - 1` of `c`, renumbered from 0: the bytes a read-out copies. -/
def Cells.window (base size : Nat) : Cells → Cells
  | [] => []
  | (j, w) :: rest =>
    if base ≤ j ∧ j < base + size then (j - base, w) :: Cells.window base size rest
    else Cells.window base size rest

/-- Stores bytes at consecutive indexes from `i` up, in order. -/
def Cells.putBytes : Cells → Nat → List Byte → Cells
  | c, _, [] => c
  | c, i, v :: rest => Cells.putBytes (Cells.put c i v) (i + 1) rest

/-! ### Memory -/

/-- `M[a]` (R8). Reading has no side effect (R58). -/
def Memory.read (m : Memory) (a : Addr) : Byte :=
  Cells.get m a.toNat

/-- `M[a] <- v` (R8). Writing stores the byte and does nothing else (R58). -/
def Memory.write (m : Memory) (a : Addr) (v : Byte) : Memory :=
  Cells.put m a.toNat v

/-- `MemRead(a, 2)`: two bytes, most significant first (R9). -/
def Memory.read2 (m : Memory) (a : Addr) : BitVec 16 :=
  m.read a ++ m.read (a + 1)

/-- `MemRead(a, 3)`, that is `Addr24(a)`: three bytes, most significant first, byte addresses modulo 2^24 (R9, R52, R55). -/
def Memory.addr24 (m : Memory) (a : Addr) : Addr :=
  m.read a ++ m.read (a + 1) ++ m.read (a + 2)

/-- The nine bytes at IP, byte addresses modulo 2^24 (R55). -/
def Memory.fetchBytes (m : Memory) (ip : Addr) : List Byte :=
  [m.read ip, m.read (ip + 1), m.read (ip + 2), m.read (ip + 3), m.read (ip + 4), m.read (ip + 5), m.read (ip + 6),
   m.read (ip + 7), m.read (ip + 8)]

/-- The instruction word at IP (R81): nine bytes, byte addresses modulo 2^24 (R55). -/
def Memory.fetchWord (m : Memory) (ip : Addr) : InstrWord :=
  joinBytes (m.read ip) (m.read (ip + 1)) (m.read (ip + 2)) (m.read (ip + 3)) (m.read (ip + 4)) (m.read (ip + 5))
    (m.read (ip + 6)) (m.read (ip + 7)) (m.read (ip + 8))

/-- The fetch under a value of `FETCH_OVERRUN` (D2): `wrap` always gives a word; `fault` stops where IP + 8 passes 0xFFFFFF. -/
def fetch (overrun : FetchOverrun) (m : Memory) (ip : Addr) : Except Fault InstrWord :=
  match overrun with
  | .wrap => .ok (m.fetchWord ip)
  | .fault => if ip.toNat + 8 < Config.memBytes then .ok (m.fetchWord ip) else .error (.fetchOverrun ip)

/-- Stores bytes at consecutive addresses from `a` up, modulo 2^24. -/
def Memory.writeBytes : Memory → Addr → List Byte → Memory
  | m, _, [] => m
  | m, a, v :: rest => Memory.writeBytes (m.write a v) (a + 1) rest

/-! ### Updates of State -/

/-- Replaces `M`. -/
def State.setMem (s : State) (m : Memory) : State :=
  { s with mem := m }

/-- Replaces `K`. -/
def State.setKeys (s : State) (k : Vector Bool 16) : State :=
  { s with keys := k }

/-- Replaces `FB` and `AB`. -/
def State.setReadOut (s : State) (fb ab : Cells) : State :=
  { s with fb := fb, ab := ab }

/-- Replaces the place in the frame, with IP and N. -/
def State.setPhase (s : State) (p : Phase) : State :=
  { s with phase := p }

/-- Replaces the commands not yet begun. -/
def State.setInbox (s : State) (cs : List Command) : State :=
  { s with inbox := cs }

/-- Returns a response to the host (R160). -/
def State.respond (s : State) (r : Response) : State :=
  { s with outbox := r :: s.outbox }

/-! ### Reading the outputs -/

/-- `FB[y][x]` (R33). -/
def State.pixel (s : State) (y x : Byte) : Byte :=
  Cells.get s.fb (y.toNat * 256 + x.toNat)

/-- `AB[i]` (R34). -/
def State.sample (s : State) (i : Byte) : Byte :=
  Cells.get s.ab i.toNat

end Sys2Proof.Machine
end

