-- ==== Sys2Proof/Machine/Operands.lean ====
section
/-! DEFINITION. The operand form, the idle condition, and the two page address decoders. -/

namespace Sys2Proof.Machine

/-- The effective address of an operand field: the 24-bit value itself, the machine's only addressing mode (R82, R107). -/
def effectiveAddress (field : Addr) : Addr :=
  field

/-- `IsIdle(A, B, C, IP) = (A == B) and (C == IP)` (R84). -/
def isIdle (a b c ip : Addr) : Bool :=
  a == b && c == ip

/-- Field A of the instruction at an address: `Addr24(IP)` (R81, R100). -/
def Memory.fieldA (m : Memory) (ip : Addr) : Addr :=
  m.addr24 ip

/-- Field B: `Addr24((IP + 3) mod 2^24)` (R81, R100). -/
def Memory.fieldB (m : Memory) (ip : Addr) : Addr :=
  m.addr24 (ip + 3)

/-- Field C: `Addr24((IP + 6) mod 2^24)` (R81, R100). -/
def Memory.fieldC (m : Memory) (ip : Addr) : Addr :=
  m.addr24 (ip + 6)

/-- Whether the instruction at an address is idle there (R84, R101). -/
def Memory.idleAt (m : Memory) (ip : Addr) : Bool :=
  isIdle (m.fieldA ip) (m.fieldB ip) (m.fieldC ip) ip

/-- The framebuffer address decoder `FBAddr(P, x, y) = (P << 16) | (y << 8) | x` (R60). -/
def fbAddr (p x y : Byte) : Addr :=
  (p.setWidth 24 <<< 16) ||| (y.setWidth 24 <<< 8) ||| x.setWidth 24

/-- The audio page address decoder `AudAddr(S, i) = (S << 8) | i` (R61). -/
def audAddr (s : BitVec 16) (i : Byte) : Addr :=
  (s.setWidth 24 <<< 8) ||| i.setWidth 24

/-- FBPAGE, the byte at 0x000005 (R29). -/
def Memory.fbPage (m : Memory) : Byte :=
  m.read 5

/-- AUDPAGE, the big-endian 16-bit value at 0x000006 (R30). -/
def Memory.audPage (m : Memory) : BitVec 16 :=
  m.read2 6

/-- PC, the big-endian 24-bit value at 0x000002 (R28). -/
def Memory.pcReg (m : Memory) : Addr :=
  m.addr24 2

/-- Step 5: the 65536 bytes `M[FBAddr(P, x, y)]`, that is the page `P || y || x` of memory (R136, R60). -/
def Memory.framePage (m : Memory) : Cells :=
  Cells.window (fbAddr m.fbPage 0 0).toNat Config.fbBytes m

/-- Step 6: the 256 bytes `M[AudAddr(S, i)]`, that is the block `S || i` of memory (R137, R61). -/
def Memory.audioBlock (m : Memory) : Cells :=
  Cells.window (audAddr m.audPage 0).toNat Config.audioBytes m

end Sys2Proof.Machine
end

