-- ==== Sys2Proof/Machine/CopyJump.lean ====
section
/-! DEFINITION. The copy-and-jump instruction BBJ: its idle check (R101) and its execution (R102). -/

namespace Sys2Proof.Machine

/-- `end_execution(reason)` (R10): the instruction loop ends, IP and N keep their values, the read-out comes next. -/
def State.endExecution (f : Frame) (why : EndReason) (s : State) : State :=
  s.setPhase (.readOut f why)

/-- `v <- M[A]; M[B] <- v; IP <- C; N <- N + 1`, in this order (R102, R103). -/
def copyAndJump (a b c : Addr) (f : Frame) (s : State) : State :=
  let v := s.mem.read (effectiveAddress a)
  (s.setMem (s.mem.write (effectiveAddress b) v)).setPhase (.executing ⟨c, f.n + 1⟩)

/-- BBJ A, B, C. Idle (R101): the execution phase ends, nothing is written. Otherwise R102.
With no execution phase running there is no IP (R35), and the meaning is refused by name: DESIGN CHOICE, log entry 4.
That the idle instruction is not counted is D4: DESIGN CHOICE of the spec, log entry 5. -/
def execBbj (a b c : Addr) (s : State) : Host.Outcome State Fault Refusal :=
  match s.phase with
  | .executing f =>
    if isIdle a b c f.ip then .next (s.endExecution f .idle)
    else .next (copyAndJump a b c f s)
  | .waiting => .refused .noInstructionLoop
  | .readOut _ _ => .refused .noInstructionLoop

end Sys2Proof.Machine
end

