-- ==== Sys2Proof/Machine/Flags.lean ====
section
/-! DEFINITION. The machine has no status flags, condition codes or predicates (R25), so no instruction computes a flag.
Its only flags are the 16 key flags `K` (R32); this file holds their packing into KEYS (R27, R131). -/

namespace Sys2Proof.Machine

/-- Key flag `K[k]`, read as 1 when held and 0 when released (R8). -/
def keyBit (keys : Vector Bool 16) (k : Nat) : Byte :=
  if keys[k]?.getD false then 1 else 0

/-- `sum over j in [0,8) of K[base+j] << j` (R130, step 1). -/
def keyByte (keys : Vector Bool 16) (base : Nat) : Byte :=
  (List.range 8).foldl (fun acc j => acc + keyBit keys (base + j) <<< j) 0

/-- Step 1 of a frame: byte 0x000000 gets keys 0 to 7 and byte 0x000001 keys 8 to 15, least significant bit first (R27, R131).
DEDUCED from the byte layout, not from the big-endian rule (C1): log entry 13. -/
def Memory.packKeys (m : Memory) (keys : Vector Bool 16) : Memory :=
  (m.write 0 (keyByte keys 0)).write 1 (keyByte keys 8)

end Sys2Proof.Machine
end

