-- ==== Sys2Proof/Machine/HostCommands.lean ====
section
/-! DEFINITION. The host's commands (R160), as the block begins each of them. `advance_frame` begins with steps 1 and 2 of a frame;
the others are complete in one step, with their response. -/

namespace Sys2Proof.Machine

/-- `load(bytes)` (R161): rejected whole above 2^24 bytes (C2, R193), else a prefix of `M` is written and nothing else (D14): DESIGN CHOICE of the
spec, log entry 9. -/
def hostLoad (bytes : List Byte) (s : State) : State :=
  if Config.memBytes < bytes.length then s.respond (.err .invalidInputSize)
  else (s.setMem (Cells.putBytes s.mem 0 bytes)).respond .ok

/-- `reset()` (R221): `M`, `K`, `FB` and `AB` take their construction values. -/
def hostReset (s : State) : State :=
  (((s.setMem State.reset.mem).setKeys State.reset.keys).setReadOut State.reset.fb State.reset.ab).respond .ok

/-- `set_key(index, pressed)` (R163): an index outside 0..15 is rejected and nothing is written: log entry 10. -/
def hostSetKey (index : Int) (pressed : Bool) (s : State) : State :=
  if 0 ≤ index ∧ index < 16 then (s.setKeys (s.keys.setIfInBounds index.toNat pressed)).respond .ok
  else s.respond (.err .invalidKeyIndex)

/-- Steps 1 and 2 of a frame: the keys are packed, then `IP <- Addr24(0x000002)` and `N <- 0` (R131, R132). -/
def startFrame (s : State) : State :=
  let m := s.mem.packKeys s.keys
  (s.setMem m).setPhase (.executing ⟨m.pcReg, 0⟩)

/-- The 65536 bytes of `FB`, for y = 0..255, for x = 0..255 (R165, the order of D6: log entry 8). -/
def framebufferBytes (fb : Cells) : List Byte :=
  (List.range 256).flatMap fun y => (List.range 256).map fun x => Cells.get fb (y * 256 + x)

/-- The 256 bytes of `AB` in index order (R166). -/
def audioBytes (ab : Cells) : List Byte :=
  (List.range 256).map fun i => Cells.get ab i

/-- `framebuffer()` (R165): returns the bytes of `FB` and changes no state. -/
def hostFramebuffer (s : State) : State :=
  s.respond (.okBytes (framebufferBytes s.fb))

/-- `audio_block()` (R166): returns the bytes of `AB` and changes no state. -/
def hostAudioBlock (s : State) : State :=
  s.respond (.okBytes (audioBytes s.ab))

/-- The block begins a command (R160). -/
def beginCommand (c : Command) (s : State) : State :=
  match c with
  | .load bytes => hostLoad bytes s
  | .reset => hostReset s
  | .setKey index pressed => hostSetKey index pressed s
  | .advanceFrame => startFrame s
  | .framebuffer => hostFramebuffer s
  | .audioBlock => hostAudioBlock s

end Sys2Proof.Machine
end

