-- ==== Sys2Proof/Machine/Sequencer.lean ====
section
/-! DEFINITION. The frame sequencer (R130): what one step does in each phase, and how a program word is placed where the next step fetches it. -/

namespace Sys2Proof.Machine

/-- Between frames the next command is begun; with none, the block waits and all state is kept (R160, R200). -/
def stepWaiting (s : State) : Host.Outcome State Fault Refusal :=
  match s.inbox with
  | [] => .next s
  | c :: rest => .next (beginCommand c (s.setInbox rest))

/-- One turn of the instruction loop (R133): the budget check, the fetch (R100), then the instruction (R101, R102).
The comparison is R133's `N < 65536`: log entry 18. -/
def stepExecuting (f : Frame) (s : State) : Host.Outcome State Fault Refusal :=
  if f.n < Config.budget then
    match fetch Config.fetchOverrun s.mem f.ip with
    | .ok w => exec (decodeWord w) s
    | .error r => .fault r
  else .next (s.endExecution f .budget)

/-- Steps 5 and 6 and the end of the frame (R136, R137, R139): `FB` and `AB` are read from memory, IP and N are discarded
and not written back (D3, log entry 6), `advance_frame` returns `Ok`. -/
def finishFrame (s : State) : State :=
  ((s.setReadOut s.mem.framePage s.mem.audioBlock).setPhase .waiting).respond .ok

/-- Stores a word at the IP of a running instruction loop. -/
def placeAt (ip : Addr) (w : InstrWord) (s : State) : State :=
  s.setMem (s.mem.writeBytes ip (wordBytes w))

/-- `s` with a word where the next step fetches its instruction. Inside an instruction loop with budget left that is IP.
Otherwise no instruction is next, so a frame is started first (R131, R132) and the word is stored at its IP: DESIGN CHOICE, log entry 12. -/
def placeFetchWord (w : InstrWord) (s : State) : State :=
  match s.phase with
  | .executing f =>
    if f.n < Config.budget then placeAt f.ip w s
    else placeAt (s.mem.packKeys s.keys).pcReg w (startFrame s)
  | .waiting => placeAt (s.mem.packKeys s.keys).pcReg w (startFrame s)
  | .readOut _ _ => placeAt (s.mem.packKeys s.keys).pcReg w (startFrame s)

end Sys2Proof.Machine
end

