-- ==== Sys2Proof/Machine/Step.lean ====
section
/-! DEFINITION. One step of the block. The body of each phase stands in Machine/Sequencer.lean. -/

namespace Sys2Proof.Machine

/-- One step: a command begun or the wait between frames, one turn of the instruction loop, or the read-out that ends a frame (R130).
The size of a step is the model's, DESIGN CHOICE: log entry 1. -/
def step (s : State) : Host.Outcome State Fault Refusal :=
  match s.phase with
  | .waiting => stepWaiting s
  | .executing f => stepExecuting f s
  | .readOut _ _ => .next (finishFrame s)

/-- `s` with the instruction whose bits are `w` (the opcode table's numbering) where the next step fetches. -/
def State.withFetchWord (s : State) (nbits w : Nat) : State :=
  placeFetchWord (tableWord nbits w) s

end Sys2Proof.Machine
end

