-- ==== Sys2Proof/Machine/Assembly.lean ====
section
/-! DEFINITION. The spec's own assembly language (R86, R87, decision D5): the three pseudo-instructions, and an assembler from
program lines to an image. No rule of the block reads this file. Conventions the spec does not state: DESIGN CHOICE, log entry 16. -/

namespace Sys2Proof.Machine

/-! ### Pseudo-instructions (R87), each at its own address `here` -/

/-- `IDLE` is `BBJ 0x000000, 0x000000, .` -/
def idleAt (here : Addr) : Instr :=
  .bbj 0 0 here

/-- `MOVB a, b` is `BBJ a, b, . + 9`, modulo 2^24. -/
def movbAt (here a b : Addr) : Instr :=
  .bbj a b (here + 9)

/-- `JMP c` is `BBJ 0x000008, 0x000008, c`; `JMP .` is refused. -/
def jmpAt (here c : Addr) : Option Instr :=
  if c = here then none else some (.bbj 8 8 c)

namespace Asm

/-- Why a program does not assemble. -/
inductive AsmError where
  /-- A number does not fit its width. -/
  | numberTooWide
  /-- A label that no line defines. -/
  | unknownLabel (name : String)
  /-- A label that two lines define. -/
  | duplicateLabel (name : String)
  /-- `JMP .` (R87). -/
  | jumpToSelf
  /-- A byte placed at 2^24 or above. -/
  | pastTop
  /-- Two lines place a byte at one address. -/
  | overlap
deriving DecidableEq, Repr

/-- A 24-bit operand: a number, a label (with an offset), or `.` (with an offset) (R86). -/
inductive Operand where
  | number (v : Nat)
  | label (name : String) (offset : Nat)
  | here (offset : Nat)
deriving DecidableEq, Repr

/-- One line of a program (R86, R87). -/
inductive Line where
  | org (addr : Nat)
  | byte (vs : List Nat)
  | addr24 (vs : List Operand)
  | addr16 (v : Nat)
  | label (name : String)
  | bbj (a b c : Operand)
  | idle
  | movb (a b : Operand)
  | jmp (c : Operand)
deriving DecidableEq, Repr

/-- The labels seen so far, each with its address. -/
abbrev Symbols := List (String × Nat)

/-- How many bytes a line places. -/
def Line.size : Line → Nat
  | .org _ => 0
  | .byte vs => vs.length
  | .addr24 vs => 3 * vs.length
  | .addr16 _ => 2
  | .label _ => 0
  | .bbj _ _ _ => 9
  | .idle => 9
  | .movb _ _ => 9
  | .jmp _ => 9

/-- The address after a line that starts at `here`. -/
def Line.after (l : Line) (here : Nat) : Nat :=
  match l with
  | .org a => a
  | _ => here + l.size

/-- The first pass: "`label:` names the address of the following byte" (R86). A label gets the location where its line stands: where no
byte follows there, because an `.org` comes next or the program ends, R86 names no address and this is the model's choice
(DESIGN CHOICE, log entry 16). -/
def collect : List Line → Nat → Symbols → Except AsmError Symbols
  | [], _, syms => .ok syms
  | .label name :: rest, here, syms =>
    match syms.lookup name with
    | some _ => .error (.duplicateLabel name)
    | none => collect rest here ((name, here) :: syms)
  | l :: rest, here, syms => collect rest (l.after here) syms

/-- A number as a 24-bit value. -/
def number24 (v : Nat) : Except AsmError Addr :=
  if v < Config.memBytes then .ok (BitVec.ofNat 24 v) else .error .numberTooWide

/-- The value of an operand of the line at `here`; offsets are taken modulo 2^24, as R87 takes `. + 9`. R86 defines `.` in an
instruction; in `.addr24` it is the address of the line's first byte (DESIGN CHOICE, log entry 16). -/
def Operand.value (syms : Symbols) (here : Nat) : Operand → Except AsmError Addr
  | .number v => number24 v
  | .label name offset =>
    match syms.lookup name with
    | some a => .ok (BitVec.ofNat 24 (a + offset))
    | none => .error (.unknownLabel name)
  | .here offset => .ok (BitVec.ofNat 24 (here + offset))

/-- The values of several operands. -/
def operandValues (syms : Symbols) (here : Nat) : List Operand → Except AsmError (List Addr)
  | [] => .ok []
  | o :: rest => do
    let v ← o.value syms here
    let vs ← operandValues syms here rest
    return v :: vs

/-- Numbers as bytes. -/
def byteValues : List Nat → Except AsmError (List Byte)
  | [] => .ok []
  | v :: rest => do
    if v < 256 then
      let vs ← byteValues rest
      return BitVec.ofNat 8 v :: vs
    else throw .numberTooWide

/-- The bytes a line places at `here`. -/
def Line.bytes (syms : Symbols) (here : Nat) : Line → Except AsmError (List Byte)
  | .org _ => .ok []
  | .label _ => .ok []
  | .byte vs => byteValues vs
  | .addr24 vs => do
    let addrs ← operandValues syms here vs
    return addrs.flatMap addrBytes
  | .addr16 v =>
    if v < 65536 then .ok [BitVec.ofNat 8 (v / 256), BitVec.ofNat 8 v] else .error .numberTooWide
  | .bbj a b c => do
    let a ← a.value syms here
    let b ← b.value syms here
    let c ← c.value syms here
    return encode (.bbj a b c)
  | .idle => .ok (encode (idleAt (BitVec.ofNat 24 here)))
  | .movb a b => do
    let a ← a.value syms here
    let b ← b.value syms here
    return encode (movbAt (BitVec.ofNat 24 here) a b)
  | .jmp c => do
    let c ← c.value syms here
    match jmpAt (BitVec.ofNat 24 here) c with
    | some i => return encode i
    | none => throw .jumpToSelf

/-- The second pass: every byte placed, with its address. -/
def place (syms : Symbols) : List Line → Nat → Except AsmError (List (Nat × Byte))
  | [], _ => .ok []
  | l :: rest, here => do
    let bs ← l.bytes syms here
    let more ← place syms rest (l.after here)
    return (List.range bs.length).zipWith (fun k b => (here + k, b)) bs ++ more

/-- The bytes a program places, checked: all below 2^24, none twice. Both passes start at address 0: where no `.org` precedes a
program's bytes R86 names no address, and 0 is the model's choice (DESIGN CHOICE, log entry 16). -/
def placed (program : List Line) : Except AsmError (List (Nat × Byte)) := do
  let syms ← collect program 0 []
  let bs ← place syms program 0
  if bs.any (fun b => Config.memBytes ≤ b.1) then throw .pastTop
  if ¬ (bs.map (·.1)).Nodup then throw .overlap
  return bs

/-- The length of an image: up to its last placed byte. -/
def imageLength (bs : List (Nat × Byte)) : Nat :=
  bs.foldl (fun n b => max n (b.1 + 1)) 0

/-- The image of a program, for `load`: bytes no directive places are 0x00 (R86, R168). -/
def assemble (program : List Line) : Except AsmError (List Byte) := do
  let bs ← placed program
  let cells := bs.foldl (fun c b => Cells.put c b.1 b.2) []
  return (List.range (imageLength bs)).map fun a => Cells.get cells a

end Asm
end Sys2Proof.Machine
end

