-- ==== Sys2Proof/Machine/Frame.lean ====
section
/-! DEFINITION. The block at its own level: six atomic commands over (M, K, FB, AB), the frame written as R130 writes it.
The step machine runs this one in smaller steps; a statement says that the two agree. -/

namespace Sys2Proof.Machine

/-- The state between frames, "which is all a host can observe" (R21). -/
structure Block where
  mem : Memory
  keys : Vector Bool 16
  fb : Cells
  ab : Cells
deriving DecidableEq, Repr

/-- What the host can observe of a state (R21). -/
def State.block (s : State) : Block :=
  ⟨s.mem, s.keys, s.fb, s.ab⟩

namespace Block

/-- What the execution phase leaves. -/
structure LoopEnd where
  mem : Memory
  frame : Frame
  why : EndReason
deriving DecidableEq, Repr

/-- The loop of steps 3 and 4 (R130), with `left = 65536 - N` turns left: the budget check, the three fields (R100), the early-exit
check (R101), the copy and the jump (R102). -/
def loop : (left : Nat) → Memory → Frame → LoopEnd
  | 0, m, f => ⟨m, f, .budget⟩
  | left + 1, m, f =>
    let a := m.addr24 f.ip
    let b := m.addr24 (f.ip + 3)
    let c := m.addr24 (f.ip + 6)
    if a = b ∧ c = f.ip then ⟨m, f, .idle⟩
    else loop left (m.write b (m.read a)) ⟨c, f.n + 1⟩

/-- The same loop without the early exit: every instruction executes, the idle one too (the other reading of R104). -/
def loopNoExit : (left : Nat) → Memory → Addr → Memory
  | 0, m, _ => m
  | left + 1, m, ip => loopNoExit left (m.write (m.addr24 (ip + 3)) (m.read (m.addr24 ip))) (m.addr24 (ip + 6))

/-- Step 5, cell by cell: `P <- M[5]`; for y, for x: `FB[y][x] <- M[FBAddr(P, x, y)]` (R136). -/
def readFb (m : Memory) (fb : Cells) : Cells :=
  (List.range 256).foldl (fun acc y =>
    (List.range 256).foldl (fun acc x =>
      Cells.put acc (y * 256 + x) (m.read (fbAddr (m.read 5) (BitVec.ofNat 8 x) (BitVec.ofNat 8 y)))) acc) fb

/-- Step 6, sample by sample: `S <- MemRead(6, 2)`; for i: `AB[i] <- M[AudAddr(S, i)]` (R137). -/
def readAb (m : Memory) (ab : Cells) : Cells :=
  (List.range 256).foldl (fun acc i => Cells.put acc i (m.read (audAddr (m.read2 6) (BitVec.ofNat 8 i)))) ab

/-- The end of the execution phase of a frame that starts in `b`: steps 1 to 4 (R130). -/
def execution (b : Block) : LoopEnd :=
  let m1 := b.mem.write 0 (keyByte b.keys 0)
  let m2 := m1.write 1 (keyByte b.keys 8)
  loop Config.budget m2 ⟨m2.addr24 2, 0⟩

/-- One whole frame (R130, R140). -/
def advanceFrame (b : Block) : Block :=
  let e := b.execution
  ⟨e.mem, b.keys, readFb e.mem b.fb, readAb e.mem b.ab⟩

/-- The construction state (R220). -/
def fresh : Block :=
  ⟨[], Vector.replicate 16 false, [], []⟩

/-- One command, whole, with its response (R160). -/
def command (c : Command) (b : Block) : Block × Response :=
  match c with
  | .load bytes =>
    if Config.memBytes < bytes.length then (b, .err .invalidInputSize)
    else (⟨Cells.putBytes b.mem 0 bytes, b.keys, b.fb, b.ab⟩, .ok)
  | .reset => (fresh, .ok)
  | .setKey index pressed =>
    if 0 ≤ index ∧ index < 16 then
      (⟨b.mem, b.keys.setIfInBounds index.toNat pressed, b.fb, b.ab⟩, .ok)
    else (b, .err .invalidKeyIndex)
  | .advanceFrame => (b.advanceFrame, .ok)
  | .framebuffer =>
    (b, .okBytes ((List.range 256).flatMap fun y => (List.range 256).map fun x => Cells.get b.fb (y * 256 + x)))
  | .audioBlock => (b, .okBytes ((List.range 256).map fun i => Cells.get b.ab i))

/-- A run of the block: a sequence of commands (D16), with the responses, newest first, put on `out`. -/
def run : List Command → Block → List Response → Block × List Response
  | [], b, out => (b, out)
  | c :: rest, b, out => run rest (b.command c).1 ((b.command c).2 :: out)

end Block
end Sys2Proof.Machine
end

