-- ==== Sys2Proof/Machine/Presentation.lean ====
section
/-! DEFINITION. The contracts of the collaborators outside the block that are plain functions (R170, R171). No rule of the block
reads this file. -/

namespace Sys2Proof.Machine

/-- What a framebuffer byte is shown as (R170). How a level 0..5 is scaled to a display channel is not given (I6): log entry 15. -/
inductive Shade where
  /-- A colour of the 6 x 6 x 6 cube, by its levels. -/
  | levels (r g b : Nat)
  /-- Black, for every value from 216 up. -/
  | black
deriving DecidableEq, Repr

/-- The colour cube of R170: `r = (v/36)%6`, `g = (v/6)%6`, `b = v%6` for v in [0,216), black from 216 up. -/
def shade (v : Byte) : Shade :=
  if v.toNat < 216 then .levels (v.toNat / 36 % 6) (v.toNat / 6 % 6) (v.toNat % 6) else .black

/-- The level of a sample byte above silence under an audio sample format (R171, D8): DESIGN CHOICE, log entry 15. -/
def sampleLevel (fmt : AudioSampleFormat) (v : Byte) : Int :=
  if fmt.signed then v.toInt - fmt.silence.toInt else (v.toNat : Int) - fmt.silence.toNat

end Sys2Proof.Machine
end

