-- ==== Sys2Proof/Safety.lean ====
section
/-! DEFINITION. The invariant of the block and what a safe step is, in the terms the statements use. -/

namespace Sys2Proof.Machine

/-- A step or a meaning goes on: no fault, no refusal. -/
def GoesOn (o : Host.Outcome State Fault Refusal) : Prop :=
  ∃ t, o = .next t

/-- `k` steps lead from `s` to `t`, every one of them a next state. -/
def Steps : Nat → State → State → Prop
  | 0, s, t => s = t
  | k + 1, s, t => ∃ u, step s = .next u ∧ Steps k u t

/-- `FB` and `AB` show the memory as it stands (the read-out invariant of R141). -/
def ShowsMemory (s : State) : Prop :=
  (∀ y x : Byte, s.pixel y x = s.mem.read (fbAddr (s.mem.read 5) x y)) ∧
    ∀ i : Byte, s.sample i = s.mem.read (audAddr (s.mem.read 6 ++ s.mem.read 7) i)

/-- The phase is one a frame can be in: N is at most 65536 (R36), the loop that ended on the budget has N = 65536 (R133), and the
loop that ended idle has N < 65536 (R101) and an idle instruction at IP. -/
def PhaseOk (m : Memory) : Phase → Prop
  | .waiting => True
  | .executing f => f.n ≤ Config.budget
  | .readOut f .budget => f.n = Config.budget
  | .readOut f .idle => f.n < Config.budget ∧ m.idleAt f.ip = true

/-- The invariant of every step: memory, framebuffer and audio block are in canonical form within their sizes (R22, R33, R34, R62),
and the phase is one a frame can be in. -/
structure Inv (s : State) : Prop where
  mem : Memory.wf s.mem = true
  fb : Cells.wf Config.fbBytes s.fb = true
  ab : Cells.wf Config.audioBytes s.ab = true
  phase : PhaseOk s.mem s.phase

end Sys2Proof.Machine
end

