-- ==== Sys2Proof/Certificates/Slice0/Obligations.lean ====
section
/-! DEFINITION. The statements for the provers, from the spec's numbered rules. -/

open Sys2Proof Sys2Proof.Machine

/-! ### Encoding -/

/-- R83: decoding is total. Nine bytes of any value, and a word of any value, are BBJ with A, B and C in the places of R81. -/
def Obligations.EveryNineBytesDecodeToBbj : Prop :=
  (∀ w : InstrWord, decodeWord w = .bbj (w.extractLsb' 48 24) (w.extractLsb' 24 24) (w.extractLsb' 0 24) ∧
      (decodeWord w).wellFormed = true) ∧
    ∀ (b0 b1 b2 b3 b4 b5 b6 b7 b8 : Byte) (rest : List Byte),
      decode (b0 :: b1 :: b2 :: b3 :: b4 :: b5 :: b6 :: b7 :: b8 :: rest) =
        .ok (.bbj (b0 ++ b1 ++ b2) (b3 ++ b4 ++ b5) (b6 ++ b7 ++ b8), rest)

/-- R81 to R86: decoding and encoding are inverse to one another, on bytes and on words, for every instruction and every operand. -/
def Obligations.DecodeAndEncodeAgree : Prop :=
  (∀ (i : Instr) (rest : List Byte), i.wellFormed = true → decode (encode i ++ rest) = .ok (i, rest)) ∧
    (∀ (bytes : List Byte) (i : Instr) (rest : List Byte), decode bytes = .ok (i, rest) → encode i ++ rest = bytes) ∧
    (∀ i : Instr, decodeWord (encodeWord i) = i) ∧
    (∀ w : InstrWord, encodeWord (decodeWord w) = w) ∧
    ∀ i : Instr, wordBytes (encodeWord i) = encode i

/-- R85: the decoder consumes exactly nine bytes, and refuses fewer by name. -/
def Obligations.DecoderConsumesNineBytes : Prop :=
  (∀ bytes : List Byte, bytes.length < 9 → decode bytes = .error .tooFewBytes) ∧
    ∀ bytes : List Byte, 9 ≤ bytes.length → ∃ i, decode bytes = .ok (i, bytes.drop 9)

/-- Words written out in the spec decode to the instructions it says they are: 95_test_vectors.md P2, P4, P7, S3. -/
def Obligations.WordsOfTheSpecDecode : Prop :=
  decode [0x0A, 0x00, 0x00, 0x05, 0x00, 0x00, 0x00, 0x00, 0x11] = .ok (.bbj 0x0A0000 0x050000 0x000011, []) ∧
    decode [0x00, 0x03, 0x00, 0x00, 0x01, 0x08, 0x00, 0x01, 0x10] = .ok (.bbj 0x000300 0x000108 0x000110, []) ∧
    decode [0x0A, 0x00, 0x00, 0x05, 0x00, 0x00, 0x00, 0xFF, 0xFF] = .ok (.bbj 0x0A0000 0x050000 0x00FFFF, []) ∧
    decode [0x00, 0x00, 0x00, 0x00, 0x00, 0x00, 0x00, 0x00, 0x00] = .ok (.bbj 0 0 0, [])

/-- The opcode table's bit numbering (A = 71:48, B = 47:24, C = 23:0, R88) on a numeral. That the table's bit 0 is the least
significant bit of the LAST byte is D11's and the model's reading: log entry 11. -/
def Obligations.TableNumberingReadsTheFields : Prop :=
  ∀ w : Nat, w < 2 ^ 72 →
    decodeTableWord 72 w =
      some (.bbj (BitVec.ofNat 24 (w / 2 ^ 48)) (BitVec.ofNat 24 (w / 2 ^ 24)) (BitVec.ofNat 24 w))

/-- R84: the idle condition; at an address `ip` the idle words are exactly the words `a || a || ip`; and the same word at another
address is an ordinary instruction. -/
def Obligations.IdleConditionOfAWord : Prop :=
  (∀ a b c ip : Addr, isIdle a b c ip = true ↔ a = b ∧ c = ip) ∧
    (∀ (w : InstrWord) (ip : Addr),
      isIdle (w.extractLsb' 48 24) (w.extractLsb' 24 24) (w.extractLsb' 0 24) ip = true ↔
        ∃ a : Addr, w = (a ++ a ++ ip : BitVec 72)) ∧
    ∀ a ip ip' : Addr, ip ≠ ip' → isIdle a a ip ip' = false

/-- R87: `IDLE` is idle at its own address, `MOVB` is never idle, `JMP` is never idle where it is not refused and is refused exactly
for `JMP .`. The pseudo-instructions are the spec's own notation (D5). -/
def Obligations.PseudoInstructionsIdleOnlyAsIdle : Prop :=
  (∀ here : Addr, ∃ a b c, idleAt here = .bbj a b c ∧ isIdle a b c here = true) ∧
    (∀ here a b : Addr, ∃ c, movbAt here a b = .bbj a b c ∧ isIdle a b c here = false) ∧
    (∀ here : Addr, jmpAt here here = none) ∧
    ∀ here c : Addr, c ≠ here → ∃ a, jmpAt here c = some (.bbj a a c) ∧ isIdle a a c here = false

/-! ### Address decoders -/

/-- R60: the framebuffer address decoder is the shift and OR of its inputs, which is their concatenation, always below 2^24; with
the rule's worked examples. -/
def Obligations.FramebufferAddressIsConcatenation : Prop :=
  (∀ p x y : Byte,
      fbAddr p x y = (p.setWidth 24 <<< 16) ||| (y.setWidth 24 <<< 8) ||| x.setWidth 24 ∧
      fbAddr p x y = (p ++ y ++ x : BitVec 24) ∧
      (fbAddr p x y).extractLsb' 16 8 = p ∧ (fbAddr p x y).extractLsb' 8 8 = y ∧ (fbAddr p x y).extractLsb' 0 8 = x ∧
      (fbAddr p x y).toNat = p.toNat * 65536 + y.toNat * 256 + x.toNat ∧ (fbAddr p x y).toNat < 2 ^ 24) ∧
    fbAddr 0x05 0x00 0x00 = 0x050000 ∧ fbAddr 0xFF 0xFF 0xFF = 0xFFFFFF

/-- R61: the audio page address decoder, likewise. -/
def Obligations.AudioAddressIsConcatenation : Prop :=
  (∀ (s : BitVec 16) (i : Byte),
      audAddr s i = (s.setWidth 24 <<< 8) ||| i.setWidth 24 ∧
      audAddr s i = (s ++ i : BitVec 24) ∧
      (audAddr s i).extractLsb' 8 16 = s ∧ (audAddr s i).extractLsb' 0 8 = i ∧
      (audAddr s i).toNat = s.toNat * 256 + i.toNat ∧ (audAddr s i).toNat < 2 ^ 24) ∧
    audAddr 0x1234 0x56 = 0x123456 ∧
    ∀ i : Byte, (audAddr 0x0000 i).toNat = i.toNat

/-! ### Memory and fetch -/

/-- R52, R54: a byte written shows in every 24-bit value that covers it, in the place big-endian order gives it, and nowhere else. -/
def Obligations.WrittenByteShowsInCoveringValues : Prop :=
  ∀ (m : Memory) (a : Addr) (v : Byte) (x : Addr), m.wf = true →
    (m.write a v).addr24 x =
      ((if x = a then v else m.read x) ++ (if x + 1 = a then v else m.read (x + 1)) ++
        (if x + 2 = a then v else m.read (x + 2)) : BitVec 24)

/-- R81, R55: the word at IP joins the nine bytes at IP + k modulo 2^24, the first in the most significant place, and its fields are
`Addr24(IP)`, `Addr24(IP + 3)`, `Addr24(IP + 6)`. The wrap modulo 2^24 is the spec's decision D2: log entry 3. -/
def Obligations.FetchedWordIsNineBytesWrapping : Prop :=
  ∀ (m : Memory) (ip : Addr),
    (∀ k : Nat, k < 9 →
      (m.fetchWord ip).extractLsb' (64 - 8 * k) 8 = Cells.get m ((ip.toNat + k) % 2 ^ 24)) ∧
    decodeWord (m.fetchWord ip) = .bbj (m.addr24 ip) (m.addr24 (ip + 3)) (m.addr24 (ip + 6))

/-- D2, I4: with `FETCH_OVERRUN = wrap` no fetch faults; with `fault` a fetch faults exactly from IP = 0xFFFFF8 up, and gives the
same word below. This hardware's value is `wrap`. Log entry 3. -/
def Obligations.FetchOverrunParameter : Prop :=
  (∀ (m : Memory) (ip : Addr), fetch .wrap m ip = .ok (m.fetchWord ip)) ∧
    (∀ (m : Memory) (ip : Addr), 0xFFFFF8 ≤ ip.toNat → fetch .fault m ip = .error (.fetchOverrun ip)) ∧
    (∀ (m : Memory) (ip : Addr), ip.toNat < 0xFFFFF8 → fetch .fault m ip = .ok (m.fetchWord ip)) ∧
    Config.fetchOverrun = .wrap

/-! ### The instruction -/

/-- A step runs the decoded instruction: with an instruction loop running and budget left, when the nine bytes at IP decode to a
well-formed `i`, the step is `exec i` (R100, R133); the step adds nothing around it. -/
def Obligations.StepRunsTheDecodedInstruction : Prop :=
  ∀ (s : State) (f : Frame) (i : Instr) (rest : List Byte),
    s.phase = .executing f → f.n < Config.budget → decode (s.mem.fetchBytes f.ip) = .ok (i, rest) →
      i.wellFormed = true → step s = exec i s ∧ rest = []

/-- R100: the fields of the instruction a step runs are `Addr24(IP)`, `Addr24((IP + 3) mod 2^24)` and `Addr24((IP + 6) mod 2^24)` of
memory as it stands when the step begins; the fetch itself changes no state. That addresses are taken modulo 2^24, and so what a step at
IP from 0xFFFFF8 up fetches, is the spec's decision D2 (DESIGN CHOICE): log entry 3. -/
def Obligations.StepFetchesTheThreeFields : Prop :=
  ∀ (s : State) (f : Frame), s.phase = .executing f → f.n < Config.budget →
    step s = exec (.bbj (s.mem.addr24 f.ip) (s.mem.addr24 (f.ip + 3)) (s.mem.addr24 (f.ip + 6))) s ∧
      (f.ip + 3).toNat = (f.ip.toNat + 3) % 2 ^ 24 ∧ (f.ip + 6).toNat = (f.ip.toNat + 6) % 2 ^ 24

/-- R102: BBJ completes. In an instruction loop, when it is not idle, `M[B] <- M[A]`, `IP <- C`, `N <- N + 1`, and nothing else of the
state changes. With the corner cases of the rule that speak of the bytes afterwards: only byte B changes, and A = B changes none. -/
def Obligations.BbjCopiesOneByteAndJumps : Prop :=
  ∀ (a b c : Addr) (s : State) (f : Frame), s.phase = .executing f → isIdle a b c f.ip = false →
    exec (.bbj a b c) s =
        .next ({ s with mem := s.mem.write b (s.mem.read a), phase := .executing ⟨c, f.n + 1⟩ } : State) ∧
      (s.mem.wf = true →
        (∀ x : Addr, (s.mem.write b (s.mem.read a)).read x = if x = b then s.mem.read a else s.mem.read x) ∧
        (a = b → s.mem.write b (s.mem.read a) = s.mem))

/-- R101: BBJ that is idle completes too: the execution phase ends with reason `Idle`, nothing is written, IP and N keep their
values. That the idle instruction is not counted is the spec's decision D4: log entry 5. -/
def Obligations.IdleBbjEndsTheInstructionLoop : Prop :=
  ∀ (a c : Addr) (s : State) (f : Frame), s.phase = .executing f → c = f.ip →
    exec (.bbj a a c) s = .next ({ s with phase := .readOut f .idle } : State)

/-- The frame of BBJ: when it answers a next state, the key flags, the framebuffer, the audio block, the commands and the responses
are unchanged; memory is unchanged outside the byte at its destination address, and wholly unchanged when it is idle. -/
def Obligations.BbjChangesOnlyItsDestinationByte : Prop :=
  ∀ (a b c : Addr) (s t : State) (f : Frame), s.mem.wf = true → s.phase = .executing f → exec (.bbj a b c) s = .next t →
    t.keys = s.keys ∧ t.fb = s.fb ∧ t.ab = s.ab ∧ t.inbox = s.inbox ∧ t.outbox = s.outbox ∧
      (isIdle a b c f.ip = true → ∀ x : Addr, t.mem.read x = s.mem.read x) ∧
      (isIdle a b c f.ip = false → ∀ x : Addr, x ≠ effectiveAddress b → t.mem.read x = s.mem.read x)

/-- BBJ is refused, by the name `noInstructionLoop`, exactly where no execution phase runs: there IP and N "do not exist" (R21, R35).
The refusal is the model's: log entry 4. -/
def Obligations.BbjRefusedOnlyOutsideTheLoop : Prop :=
  ∀ (a b c : Addr) (s : State),
    exec (.bbj a b c) s = .refused .noInstructionLoop ↔ ∀ f : Frame, s.phase ≠ .executing f

/-- R103: the order inside one instruction. For an instruction that is not idle, run by a step: the byte written is the byte at A
before the write; IP becomes the C fetched before the write; and every later fetch, at any address, sees the written byte. Where a
fetch passes the top of memory it wraps by the spec's decision D2 (DESIGN CHOICE): log entry 3. -/
def Obligations.FetchReadWriteJumpInOrder : Prop :=
  ∀ (s : State) (f : Frame), s.mem.wf = true → s.phase = .executing f → f.n < Config.budget →
    s.mem.idleAt f.ip = false →
      ∃ t : State, step s = .next t ∧ t.phase = .executing ⟨s.mem.addr24 (f.ip + 6), f.n + 1⟩ ∧
        t.mem.read (s.mem.addr24 (f.ip + 3)) = s.mem.read (s.mem.addr24 f.ip) ∧
        ∀ (x : Addr) (k : Nat), k < 9 →
          (t.mem.fetchWord x).extractLsb' (64 - 8 * k) 8 =
            if x + BitVec.ofNat 24 k = s.mem.addr24 (f.ip + 3) then s.mem.read (s.mem.addr24 f.ip)
            else s.mem.read (x + BitVec.ofNat 24 k)

/-- R105: a self-loop (C = IP, A ≠ B) that does not write its own nine bytes makes the same copy at every step: after any number
`j + 1` of steps within the budget, byte B holds M[A], nothing else has changed, IP is the same and N has grown by `j + 1`. -/
def Obligations.SelfLoopRepeatsOneCopy : Prop :=
  ∀ (s : State) (f : Frame), s.mem.wf = true → s.phase = .executing f →
    s.mem.fieldA f.ip ≠ s.mem.fieldB f.ip → s.mem.fieldC f.ip = f.ip →
    (∀ k : Nat, k < 9 → s.mem.fieldB f.ip ≠ f.ip + BitVec.ofNat 24 k) →
      ∀ j : Nat, f.n + j + 1 ≤ Config.budget →
        Steps (j + 1) s { s with
          mem := s.mem.write (s.mem.fieldB f.ip) (s.mem.read (s.mem.fieldA f.ip)),
          phase := .executing ⟨f.ip, f.n + j + 1⟩ }

/-- R32, R33, R34: no instruction reads the key flags, the framebuffer or the audio block: a step of the instruction loop does the
same whatever they hold, and leaves them as they are. -/
def Obligations.InstructionsCannotSeeKeysOrReadOut : Prop :=
  ∀ (s t : State) (f : Frame) (k : Vector Bool 16) (fb ab : Cells), s.phase = .executing f → step s = .next t →
    step ({ s with keys := k, fb := fb, ab := ab } : State) =
        .next ({ t with keys := k, fb := fb, ab := ab } : State) ∧
      t.keys = s.keys ∧ t.fb = s.fb ∧ t.ab = s.ab

/-! ### The frame sequencer -/

/-- R131: step 1 of a frame writes both KEYS bytes from the key flags, whatever they held; `K` is not changed; no other byte is
changed; no command is begun and `K` is not changed until the frame has ended; and the rule's worked example. The byte order of KEYS is
read from the byte layout (DEDUCED, C1): log entry 13. That no command is begun inside a frame is the spec's decision D9 in the model's
terms of steps and an inbox (DESIGN CHOICE): log entries 1 and 2. -/
def Obligations.FrameStartPacksTheKeys : Prop :=
  (∀ (s : State) (rest : List Command), s.mem.wf = true → s.phase = .waiting → s.inbox = .advanceFrame :: rest →
      ∃ t : State, step s = .next t ∧
        (∀ j : Nat, j < 8 → (t.mem.read 0).getLsbD j = s.keys[j]?.getD false) ∧
        (∀ j : Nat, j < 8 → (t.mem.read 1).getLsbD j = s.keys[8 + j]?.getD false) ∧
        (∀ a : Addr, a ≠ 0 → a ≠ 1 → t.mem.read a = s.mem.read a) ∧
        t.keys = s.keys ∧ t.fb = s.fb ∧ t.ab = s.ab ∧ t.inbox = rest ∧ t.outbox = s.outbox) ∧
    (∀ s t : State, s.phase ≠ .waiting → step s = .next t → t.keys = s.keys ∧ t.inbox = s.inbox) ∧
    ∀ k : Vector Bool 16, (∀ j : Fin 16, k[j] = (j == 0 || j == 3 || j == 9)) → keyByte k 0 = 0x09 ∧ keyByte k 8 = 0x02

/-- R132: step 2 reads PC after the key packing: `IP <- M[2] || M[3] || M[4]`, `N <- 0`; the packing never changes the PC value read. -/
def Obligations.FrameStartsAtPc : Prop :=
  ∀ (s : State) (rest : List Command), s.mem.wf = true → s.phase = .waiting → s.inbox = .advanceFrame :: rest →
    ∃ t : State, step s = .next t ∧
      t.phase = .executing ⟨(s.mem.read 2 ++ s.mem.read 3 ++ s.mem.read 4 : BitVec 24), 0⟩ ∧
      t.mem.addr24 2 = s.mem.addr24 2

/-- R135, R133: no other condition ends the execution phase and no error arises in it. From a state of the loop with N ≤ 65536, a
step ends the phase with reason `Budget` when N = 65536 (nothing fetched, nothing written), with reason `Idle` when N < 65536 and
the instruction is idle, and otherwise executes it and stays in the loop. That the idle end leaves N unchanged is the spec's decision D4
(log entry 5); that the reason is recorded is bookkeeping, D15 (log entry 14); that a fetch over the top of memory raises no error is D2
(log entry 3): DESIGN CHOICE, all three. -/
def Obligations.OnlyIdleOrBudgetEndsTheLoop : Prop :=
  ∀ (s : State) (f : Frame), s.phase = .executing f → f.n ≤ Config.budget →
    (f.n = 65536 → step s = .next ({ s with phase := .readOut f .budget } : State)) ∧
      (f.n < 65536 → s.mem.idleAt f.ip = true → step s = .next ({ s with phase := .readOut f .idle } : State)) ∧
      (f.n < 65536 → s.mem.idleAt f.ip = false →
        ∃ t : State, step s = .next t ∧ t.phase = .executing ⟨s.mem.fieldC f.ip, f.n + 1⟩)

/-- R136, R137, R138, R139: the read-out. `FB[y][x]` becomes `M[FBAddr(M[5], x, y)]` and `AB[i]` becomes `M[AudAddr(M[6] || M[7], i)]`,
memory as it stands when the execution phase has ended and unchanged by the read-out; IP and N are discarded; `Ok` is returned.
`FB[y][x]` as the cell (x, y) and the audio block are the spec's decisions D6 and D7: log entries 7 and 8. -/
def Obligations.ReadOutCopiesThePages : Prop :=
  ∀ (s : State) (f : Frame) (why : EndReason), s.phase = .readOut f why →
    ∃ t : State, step s = .next t ∧
      (∀ y x : Byte, t.pixel y x = s.mem.read (fbAddr (s.mem.read 5) x y)) ∧
      (∀ i : Byte, t.sample i = s.mem.read (audAddr (s.mem.read 6 ++ s.mem.read 7) i)) ∧
      t.mem = s.mem ∧ t.keys = s.keys ∧ t.phase = .waiting ∧ t.inbox = s.inbox ∧ t.outbox = .ok :: s.outbox

/-- R130, R136, R137: the read-out by windows equals the rule's loops over every cell, whatever `FB` and `AB` held before
("overwritten, not merged"). -/
def Obligations.WindowReadOutEqualsTheCellLoops : Prop :=
  ∀ (m : Memory) (fb ab : Cells), m.wf = true → Cells.wf Config.fbBytes fb = true → Cells.wf Config.audioBytes ab = true →
    m.framePage = Block.readFb m fb ∧ m.audioBlock = Block.readAb m ab

/-- R141: right after a frame `FB` and `AB` show the memory, and they go on doing so until a command that writes memory begins. For
`AB` the rule marks this as derived. -/
def Obligations.ReadOutShowsMemoryUntilItIsWritten : Prop :=
  (∀ (s t : State) (f : Frame) (why : EndReason), s.phase = .readOut f why → step s = .next t → ShowsMemory t) ∧
    ∀ (s t : State), s.phase = .waiting → ShowsMemory s → step s = .next t →
      (∀ bytes rest, s.inbox ≠ .load bytes :: rest) → (∀ rest, s.inbox ≠ .reset :: rest) →
      (∀ rest, s.inbox ≠ .advanceFrame :: rest) → ShowsMemory t

/-- R134: budget exactness, with the termination of R142. A frame that starts executes `n` instructions, none of them idle, with
n ≤ 65536, then ends its loop: by the budget exactly when n = 65536, by an idle instruction exactly when n < 65536 and the
instruction at IP is idle; one step later it has read out, returned `Ok` and the block waits. That the idle instruction is not counted in
`n` is the spec's decision D4 (log entry 5), the reason is bookkeeping, D15 (log entry 14), and the steps and the inbox are the model's
(log entries 1 and 2): DESIGN CHOICE, all of them. -/
def Obligations.FrameExecutesAtMostItsBudget : Prop :=
  ∀ (s : State) (rest : List Command), s.phase = .waiting → s.inbox = .advanceFrame :: rest →
    ∃ (n : Nat) (f : Frame) (why : EndReason) (u t : State), n ≤ 65536 ∧
      (∀ j : Nat, j ≤ n → ∃ (v : State) (g : Frame), Steps (j + 1) s v ∧ v.phase = .executing g ∧ g.n = j ∧
        (j < n → v.mem.idleAt g.ip = false)) ∧
      Steps (n + 2) s u ∧ u.phase = .readOut f why ∧ f.n = n ∧
      (why = .budget ↔ n = 65536) ∧ (why = .idle ↔ n < 65536 ∧ u.mem.idleAt f.ip = true) ∧
      Steps (n + 3) s t ∧ t.phase = .waiting ∧ t.inbox = rest ∧ t.outbox = .ok :: s.outbox

/-- R140: a frame is a function of memory and key flags: what `FB` and `AB` held before has no effect on memory, framebuffer or audio
block after it, and `K` is kept. -/
def Obligations.FrameDependsOnMemoryAndKeysOnly : Prop :=
  ∀ b b' : Block, b.mem = b'.mem → b.keys = b'.keys → b.mem.wf = true →
    Cells.wf Config.fbBytes b.fb = true → Cells.wf Config.fbBytes b'.fb = true →
    Cells.wf Config.audioBytes b.ab = true → Cells.wf Config.audioBytes b'.ab = true →
      b.advanceFrame = b'.advanceFrame ∧ b.advanceFrame.keys = b.keys

/-- R104: idle equivalence. Stopping at the first idle instruction leaves the same memory as executing 65536 instructions, idle ones
included. The rule marks this as derived. -/
def Obligations.EarlyExitLeavesTheSameMemory : Prop :=
  ∀ (left : Nat) (m : Memory) (f : Frame), m.wf = true → (Block.loop left m f).mem = Block.loopNoExit left m f.ip

/-- R130, R21: the steps of one frame do exactly what the atomic `advance_frame` of R130 does to (M, K, FB, AB), and between its first
and its last step the block is never waiting, so that no command is begun inside it. The atomicity is the spec's decision D9: log
entry 1. The inbox is the model's: log entry 2. -/
def Obligations.FrameStepsRefineTheAtomicFrame : Prop :=
  ∀ (s : State) (rest : List Command), Inv s → s.phase = .waiting → s.inbox = .advanceFrame :: rest →
    ∃ (k : Nat) (t : State), k ≤ 65539 ∧ Steps k s t ∧ t.block = s.block.advanceFrame ∧ t.phase = .waiting ∧
      t.inbox = rest ∧ t.outbox = .ok :: s.outbox ∧
      ∀ (j : Nat) (u : State), 0 < j → j < k → Steps j s u → u.phase ≠ .waiting

/-- R160, D16: a run of the block is a sequence of commands. From every waiting state that meets the invariant, the step machine runs
its whole inbox to the block state and the responses that the atomic commands give, in at most 65539 steps a command. The steps, the
inbox and the outbox are the model's (DESIGN CHOICE): log entries 1 and 2. -/
def Obligations.ScriptRunsAsAtomicCommands : Prop :=
  ∀ s : State, Inv s → s.phase = .waiting →
    ∃ (k : Nat) (t : State), k ≤ 65539 * s.inbox.length ∧ Steps k s t ∧ t.phase = .waiting ∧ t.inbox = [] ∧
      t.block = (Block.run s.inbox s.block s.outbox).1 ∧ t.outbox = (Block.run s.inbox s.block s.outbox).2

/-- 95_test_vectors.md S3, R222: the first frame of an empty machine with no key held idles at once and leaves every byte zero; the
block is back in its reset state, one response richer. That `AB` is part of the block is D7: log entry 7. -/
def Obligations.FirstFrameOfAnEmptyMachineIsBlank : Prop :=
  Steps 3 ({ State.reset with inbox := [.advanceFrame] } : State) ({ State.reset with outbox := [.ok] } : State)

/-! ### Host commands -/

/-- R161: `load` of at most 2^24 bytes writes its prefix of memory and nothing else. That `K`, `FB` and `AB` are kept is the spec's
decision D14: log entry 9. -/
def Obligations.LoadWritesAPrefix : Prop :=
  ∀ (s : State) (bytes : List Byte) (rest : List Command), s.mem.wf = true → s.phase = .waiting →
    s.inbox = .load bytes :: rest → bytes.length ≤ 2 ^ 24 →
      ∃ t : State, step s = .next t ∧
        (∀ a : Addr, t.mem.read a = if h : a.toNat < bytes.length then bytes[a.toNat] else s.mem.read a) ∧
        t.keys = s.keys ∧ t.fb = s.fb ∧ t.ab = s.ab ∧ t.phase = .waiting ∧ t.inbox = rest ∧ t.outbox = .ok :: s.outbox

/-- R193: the two error responses, each exactly for its cause, with (M, K, FB, AB) unchanged. The names are the spec's (D10). -/
def Obligations.HostErrorsChangeNothing : Prop :=
  (∀ (s : State) (bytes : List Byte) (rest : List Command), s.phase = .waiting → s.inbox = .load bytes :: rest →
      2 ^ 24 < bytes.length →
        step s = .next ({ s with inbox := rest, outbox := .err .invalidInputSize :: s.outbox } : State)) ∧
    ∀ (s : State) (index : Int) (pressed : Bool) (rest : List Command), s.phase = .waiting →
      s.inbox = .setKey index pressed :: rest → (index < 0 ∨ 16 ≤ index) →
        step s = .next ({ s with inbox := rest, outbox := .err .invalidKeyIndex :: s.outbox } : State)

/-- R163: `set_key` with an index in 0..15 sets that key flag alone and writes no memory; setting a flag to the value it has changes
nothing; any other index is rejected and nothing is written. That the index may be any integer and that the error has the name
InvalidKeyIndex is log entry 10 (DESIGN CHOICE, D10). -/
def Obligations.SetKeySetsOneFlag : Prop :=
  (∀ (s : State) (k : Fin 16) (pressed : Bool) (rest : List Command), s.phase = .waiting →
      s.inbox = .setKey (k.val : Int) pressed :: rest →
        ∃ t : State, step s = .next t ∧ (∀ j : Fin 16, t.keys[j] = if j = k then pressed else s.keys[j]) ∧
          (s.keys[k] = pressed → t.keys = s.keys) ∧
          t.mem = s.mem ∧ t.fb = s.fb ∧ t.ab = s.ab ∧ t.phase = .waiting ∧ t.inbox = rest ∧
          t.outbox = .ok :: s.outbox) ∧
    ∀ (s : State) (index : Int) (pressed : Bool) (rest : List Command), s.phase = .waiting →
      s.inbox = .setKey index pressed :: rest → ¬ (0 ≤ index ∧ index < 16) →
        ∃ t : State, step s = .next t ∧ t.block = s.block ∧ t.outbox = .err .invalidKeyIndex :: s.outbox

/-- R221: `reset` puts the whole block into its construction state, from any state, and is idempotent. That `AB` is cleared is the
spec's decision D7: log entry 7. -/
def Obligations.ResetClearsTheBlock : Prop :=
  ∀ (s : State) (rest : List Command), s.phase = .waiting → s.inbox = .reset :: rest →
    ∃ t : State, step s = .next t ∧ (∀ a : Addr, t.mem.read a = 0) ∧ (∀ k : Fin 16, t.keys[k] = false) ∧
      (∀ y x : Byte, t.pixel y x = 0) ∧ (∀ i : Byte, t.sample i = 0) ∧ t.block = State.reset.block ∧
      t.phase = .waiting ∧ t.inbox = rest ∧ t.outbox = .ok :: s.outbox

/-- R165: `framebuffer()` returns the 65536 bytes of `FB`, byte y*256 + x being `FB[y][x]`, and changes no state of the block. The order
is the spec's decision D6: log entry 8. -/
def Obligations.FramebufferReturnsRowsInOrder : Prop :=
  ∀ (s : State) (rest : List Command), s.phase = .waiting → s.inbox = .framebuffer :: rest →
    ∃ bytes : List Byte, step s = .next ({ s with inbox := rest, outbox := .okBytes bytes :: s.outbox } : State) ∧
      bytes.length = 65536 ∧ ∀ y x : Byte, bytes[y.toNat * 256 + x.toNat]? = some (s.pixel y x)

/-- R166: `audio_block()` returns the 256 bytes of `AB` in index order and changes no state of the block. The operation is the spec's
decision D7: log entry 7. -/
def Obligations.AudioBlockReturnsSamplesInOrder : Prop :=
  ∀ (s : State) (rest : List Command), s.phase = .waiting → s.inbox = .audioBlock :: rest →
    ∃ bytes : List Byte, step s = .next ({ s with inbox := rest, outbox := .okBytes bytes :: s.outbox } : State) ∧
      bytes.length = 256 ∧ ∀ i : Byte, bytes[i.toNat]? = some (s.sample i)

/-- R200: with no command of the host the block waits and all its state is kept. -/
def Obligations.BlockWaitsForTheHost : Prop :=
  ∀ s : State, s.phase = .waiting → s.inbox = [] → step s = .next s

/-! ### The whole machine -/

/-- R190, R192: nothing stops the machine: every step, from every state, answers a next state. (With this hardware's value of
`FETCH_OVERRUN`.) -/
def Obligations.EveryStepGoesOn : Prop :=
  ∀ s : State, GoesOn (step s)

/-- R220: the state after construction and reset: every byte 0x00, every key released, every cell and sample 0x00, between frames.
`AB` is D7 (log entry 7); the empty inbox and outbox are the model's (log entry 2). -/
def Obligations.ResetStateIsAllZero : Prop :=
  (∀ a : Addr, State.reset.mem.read a = 0) ∧ (∀ k : Fin 16, State.reset.keys[k] = false) ∧
    (∀ y x : Byte, State.reset.pixel y x = 0) ∧ (∀ i : Byte, State.reset.sample i = 0) ∧
    State.reset.mem.pcReg = 0 ∧ State.reset.mem.fbPage = 0 ∧ State.reset.mem.audPage = 0 ∧
    State.reset.phase = .waiting ∧ State.reset.inbox = [] ∧ State.reset.outbox = []

/-- The invariant holds after reset (R22, R33, R34, R36, R220). -/
def Obligations.ResetMeetsTheInvariant : Prop :=
  Inv State.reset

/-- Every step keeps the invariant: memory, framebuffer and audio block stay canonical within their sizes (R22, R33, R34, R62), N stays
at most 65536 (R36), and the loop ends on the budget only at N = 65536 and on an idle instruction only below (R133, R101). -/
def Obligations.EveryStepKeepsTheInvariant : Prop :=
  ∀ s t : State, Inv s → step s = .next t → Inv t

/-- R23: who writes memory. If a step changes the byte at `x`, then it ran a non-idle instruction whose destination is `x`, or it began a
frame and `x` is a KEYS byte, or it began a `load` that covers `x`, or it began a `reset`. -/
def Obligations.MemoryIsWrittenOnlyByItsWriters : Prop :=
  ∀ (s t : State) (x : Addr), s.mem.wf = true → step s = .next t → t.mem.read x ≠ s.mem.read x →
    (∃ f : Frame, s.phase = .executing f ∧ f.n < Config.budget ∧ s.mem.idleAt f.ip = false ∧ x = s.mem.fieldB f.ip) ∨
      (s.phase = .waiting ∧ (∃ rest, s.inbox = .advanceFrame :: rest) ∧ (x = 0 ∨ x = 1)) ∨
      (s.phase = .waiting ∧ ∃ bytes rest, s.inbox = .load bytes :: rest ∧ bytes.length ≤ 2 ^ 24 ∧
        x.toNat < bytes.length) ∨
      (s.phase = .waiting ∧ ∃ rest, s.inbox = .reset :: rest)

/-- R32: the key flags are written only by `set_key` with a valid index and by `reset`. -/
def Obligations.KeyFlagsAreWrittenOnlyByTheHost : Prop :=
  ∀ (s t : State), step s = .next t → t.keys ≠ s.keys →
    s.phase = .waiting ∧
      ((∃ index pressed rest, s.inbox = .setKey index pressed :: rest ∧ 0 ≤ index ∧ index < 16) ∨
        ∃ rest, s.inbox = .reset :: rest)

/-- R33, R34, R67: the framebuffer and the audio block are written only by the read-out that ends a frame and by `reset`. -/
def Obligations.ReadOutIsWrittenOnlyAtFrameEnd : Prop :=
  ∀ (s t : State), step s = .next t → (t.fb ≠ s.fb ∨ t.ab ≠ s.ab) →
    (∃ f why, s.phase = .readOut f why ∧ t.phase = .waiting) ∨ (s.phase = .waiting ∧ ∃ rest, s.inbox = .reset :: rest)

/-- How a word comes to be fetched: from any state, with the word of an instruction of at most 72 bits placed by `withFetchWord`, the
very next step runs the instruction the decoder reads from it. The placing is the model's: log entry 12. -/
def Obligations.PlacedWordRunsNext : Prop :=
  ∀ (s : State) (nbits w : Nat), s.mem.wf = true →
    ∃ i : Instr, decodeTableWord nbits w = some i ∧
      step (s.withFetchWord nbits w) = exec i (s.withFetchWord nbits w) ∧ GoesOn (exec i (s.withFetchWord nbits w))

/-! ### Contracts outside the block -/

/-- R170: the colour cube: 216 different colours with levels below 6 and the rule's formula, and black from 216 up. -/
def Obligations.ColourCubeIsOneToOne : Prop :=
  (∀ v : Byte, v.toNat < 216 →
      shade v = .levels (v.toNat / 36 % 6) (v.toNat / 6 % 6) (v.toNat % 6) ∧
      ∀ w : Byte, w.toNat < 216 → shade v = shade w → v = w) ∧
    ∀ v : Byte, 216 ≤ v.toNat → shade v = .black
end

