-- ==== Sys2Proof/Laws/Cells.lean ====
section
/-! SUPPORT. The laws of cells: a read after a write, the canonical form and what keeps it, windows, and that canonical cells with
the same bytes are equal. -/

namespace Sys2Proof.Machine

@[simp] theorem Cells.get_nil (i : Nat) : Cells.get [] i = 0#8 := rfl

theorem Cells.get_cons (j : Nat) (w : Byte) (rest : Cells) (i : Nat) :
    Cells.get ((j, w) :: rest) i = if i = j then w else Cells.get rest i := rfl

/-- The canonical form, read off its head. -/
theorem Cells.wfFrom_cons {size lo j : Nat} {w : Byte} {rest : Cells} :
    Cells.wfFrom size lo ((j, w) :: rest) = true ↔
      lo ≤ j ∧ j < size ∧ w ≠ 0#8 ∧ Cells.wfFrom size (j + 1) rest = true := by
  simp only [Cells.wfFrom, Bool.and_eq_true, decide_eq_true_eq, and_assoc]

theorem Cells.wfFrom_mono {size : Nat} {c : Cells} {lo lo' : Nat} (h : Cells.wfFrom size lo c = true)
    (hle : lo' ≤ lo) : Cells.wfFrom size lo' c = true := by
  cases c with
  | nil => rfl
  | cons e rest =>
    obtain ⟨j, w⟩ := e
    rw [Cells.wfFrom_cons] at h ⊢
    exact ⟨by omega, h.2⟩

/-- Canonical cells hold nothing below their lower bound. -/
theorem Cells.get_of_lt {size : Nat} {c : Cells} {lo i : Nat} (h : Cells.wfFrom size lo c = true) (hi : i < lo) :
    Cells.get c i = 0#8 := by
  induction c generalizing lo with
  | nil => rfl
  | cons e rest ih =>
    obtain ⟨j, w⟩ := e
    rw [Cells.wfFrom_cons] at h
    rw [Cells.get_cons, if_neg (by omega)]
    exact ih h.2.2.2 (by omega)

/-- Canonical cells hold nothing at or above their size. -/
theorem Cells.get_of_ge {size : Nat} {c : Cells} {lo i : Nat} (h : Cells.wfFrom size lo c = true) (hi : size ≤ i) :
    Cells.get c i = 0#8 := by
  induction c generalizing lo with
  | nil => rfl
  | cons e rest ih =>
    obtain ⟨j, w⟩ := e
    rw [Cells.wfFrom_cons] at h
    rw [Cells.get_cons, if_neg (by omega)]
    exact ih h.2.2.2

/-- Everything a store does, on canonical cells: the byte is stored and every other byte is kept. -/
theorem Cells.get_put {size : Nat} {c : Cells} {lo : Nat} (h : Cells.wfFrom size lo c = true) (i : Nat) (v : Byte)
    (k : Nat) : Cells.get (Cells.put c i v) k = if k = i then v else Cells.get c k := by
  induction c generalizing lo with
  | nil =>
    by_cases hv : v = 0#8 <;> simp [Cells.put, Cells.get, hv]
  | cons e rest ih =>
    obtain ⟨j, w⟩ := e
    rw [Cells.wfFrom_cons] at h
    have hlt : ∀ x, x ≤ j → Cells.get rest x = 0#8 := fun x hx => Cells.get_of_lt h.2.2.2 (by omega)
    have ih := ih h.2.2.2
    simp only [Cells.put]
    by_cases hk : k = i
    · subst hk
      rw [if_pos rfl]
      split_ifs with h1 h2 h3 h4
      · rw [Cells.get_cons, if_neg (by omega), hlt k (by omega), h2]
      · rw [Cells.get_cons, if_pos rfl]
      · rw [hlt k (by omega), h4]
      · rw [Cells.get_cons, if_pos rfl]
      · rw [Cells.get_cons, if_neg (by omega), ih, if_pos rfl]
    · rw [if_neg hk] at ih ⊢
      split_ifs with h1 h2 h3 h4
      · rfl
      · rw [Cells.get_cons, if_neg hk]
      · rw [Cells.get_cons, if_neg (by omega)]
      · rw [Cells.get_cons, if_neg hk, Cells.get_cons, if_neg (by omega)]
      · rw [Cells.get_cons, Cells.get_cons, ih]

/-- A store keeps the canonical form. -/
theorem Cells.wfFrom_put {size : Nat} {c : Cells} {lo i : Nat} (h : Cells.wfFrom size lo c = true) (hlo : lo ≤ i)
    (hi : i < size) (v : Byte) : Cells.wfFrom size lo (Cells.put c i v) = true := by
  induction c generalizing lo with
  | nil =>
    by_cases hv : v = 0#8 <;> simp [Cells.put, Cells.wfFrom, hv, hlo, hi]
  | cons e rest ih =>
    obtain ⟨j, w⟩ := e
    have h' := Cells.wfFrom_cons.1 h
    simp only [Cells.put]
    split_ifs with h1 h2 h3 h4
    · exact h
    · rw [Cells.wfFrom_cons, Cells.wfFrom_cons]
      exact ⟨hlo, hi, h2, by omega, h'.2.1, h'.2.2⟩
    · exact Cells.wfFrom_mono h'.2.2.2 (by omega)
    · rw [Cells.wfFrom_cons]
      exact ⟨hlo, hi, h4, Cells.wfFrom_mono h'.2.2.2 (by omega)⟩
    · rw [Cells.wfFrom_cons]
      exact ⟨h'.1, h'.2.1, h'.2.2.1, ih h'.2.2.2 (by omega)⟩

theorem Cells.wf_put {size : Nat} {c : Cells} {i : Nat} (h : Cells.wf size c = true) (hi : i < size) (v : Byte) :
    Cells.wf size (Cells.put c i v) = true :=
  Cells.wfFrom_put h (Nat.zero_le i) hi v

@[simp] theorem Cells.wf_nil (size : Nat) : Cells.wf size [] = true := rfl

theorem Cells.wf_putBytes {size : Nat} (bytes : List Byte) {c : Cells} {i : Nat} (h : Cells.wf size c = true)
    (hi : i + bytes.length ≤ size) : Cells.wf size (Cells.putBytes c i bytes) = true := by
  induction bytes generalizing c i with
  | nil => exact h
  | cons v rest ih =>
    rw [List.length_cons] at hi
    exact ih (Cells.wf_put h (by omega) v) (by omega)

/-- Everything a store of several bytes does. -/
theorem Cells.get_putBytes {size : Nat} (bytes : List Byte) {c : Cells} {i : Nat} (h : Cells.wf size c = true)
    (hi : i + bytes.length ≤ size) (k : Nat) :
    Cells.get (Cells.putBytes c i bytes) k =
      if i ≤ k ∧ k < i + bytes.length then bytes.getD (k - i) 0#8 else Cells.get c k := by
  induction bytes generalizing c i with
  | nil =>
    rw [if_neg (by rw [List.length_nil]; omega)]
    rfl
  | cons v rest ih =>
    rw [List.length_cons] at hi ⊢
    rw [Cells.putBytes, ih (Cells.wf_put h (by omega) v) (by omega), Cells.get_put h]
    rcases Nat.lt_trichotomy k i with hk | hk | hk
    · rw [if_neg (by omega), if_neg (by omega), if_neg (by omega)]
    · subst hk
      rw [if_neg (by omega), if_pos rfl, if_pos (by omega)]
      simp
    · have hs : k - i = (k - (i + 1)) + 1 := by omega
      by_cases hk' : k < i + 1 + rest.length
      · rw [if_pos (by omega), if_pos (by omega), hs]
        simp
      · rw [if_neg (by omega), if_neg (by omega), if_neg (by omega)]

/-- A window holds the bytes of its range, renumbered from 0. -/
theorem Cells.get_window (base size : Nat) (c : Cells) (i : Nat) (hi : i < size) :
    Cells.get (Cells.window base size c) i = Cells.get c (base + i) := by
  induction c with
  | nil => rfl
  | cons e rest ih =>
    obtain ⟨j, w⟩ := e
    simp only [Cells.window]
    by_cases h1 : base ≤ j ∧ j < base + size
    · rw [if_pos h1, Cells.get_cons, Cells.get_cons, ih]
      by_cases h2 : i = j - base
      · rw [if_pos h2, if_pos (by omega)]
      · rw [if_neg h2, if_neg (by omega)]
    · rw [if_neg h1, Cells.get_cons, ih, if_neg (by omega)]

theorem Cells.wfFrom_window {size : Nat} {c : Cells} {lo : Nat} (base n : Nat) (h : Cells.wfFrom size lo c = true) :
    Cells.wfFrom n (lo - base) (Cells.window base n c) = true := by
  induction c generalizing lo with
  | nil => rfl
  | cons e rest ih =>
    obtain ⟨j, w⟩ := e
    rw [Cells.wfFrom_cons] at h
    have ih := ih h.2.2.2
    simp only [Cells.window]
    by_cases h1 : base ≤ j ∧ j < base + n
    · rw [if_pos h1, Cells.wfFrom_cons]
      refine ⟨by omega, by omega, h.2.2.1, ?_⟩
      rwa [show j - base + 1 = j + 1 - base by omega]
    · rw [if_neg h1]
      exact Cells.wfFrom_mono ih (by omega)

/-- A window of canonical cells is canonical. -/
theorem Cells.wf_window {size : Nat} {c : Cells} (base n : Nat) (h : Cells.wf size c = true) :
    Cells.wf n (Cells.window base n c) = true := by
  have := Cells.wfFrom_window base n h
  rwa [Nat.zero_sub] at this

/-- Canonical cells that read the same everywhere are equal: the form is canonical. -/
theorem Cells.ext_of_get {size : Nat} {c d : Cells} {lo : Nat} (hc : Cells.wfFrom size lo c = true)
    (hd : Cells.wfFrom size lo d = true) (h : ∀ i, Cells.get c i = Cells.get d i) : c = d := by
  induction c generalizing d lo with
  | nil =>
    cases d with
    | nil => rfl
    | cons e rest =>
      obtain ⟨j, w⟩ := e
      have := h j
      rw [Cells.get_cons, if_pos rfl] at this
      exact absurd this.symm (Cells.wfFrom_cons.1 hd).2.2.1
  | cons e rest ih =>
    obtain ⟨j, w⟩ := e
    have hc' := Cells.wfFrom_cons.1 hc
    cases d with
    | nil =>
      have := h j
      rw [Cells.get_cons, if_pos rfl] at this
      exact absurd this hc'.2.2.1
    | cons e' rest' =>
      obtain ⟨j', w'⟩ := e'
      have hd' := Cells.wfFrom_cons.1 hd
      have hjj : j = j' := by
        rcases Nat.lt_trichotomy j j' with hlt | heq | hgt
        · have := h j
          rw [Cells.get_cons, if_pos rfl, Cells.get_cons, if_neg (by omega),
            Cells.get_of_lt hd'.2.2.2 (by omega)] at this
          exact absurd this hc'.2.2.1
        · exact heq
        · have := h j'
          rw [Cells.get_cons, if_neg (by omega), Cells.get_of_lt hc'.2.2.2 (by omega), Cells.get_cons,
            if_pos rfl] at this
          exact absurd this.symm hd'.2.2.1
      subst hjj
      have hww : w = w' := by
        have := h j
        rwa [Cells.get_cons, if_pos rfl, Cells.get_cons, if_pos rfl] at this
      subst hww
      refine congrArg _ (ih hc'.2.2.2 hd'.2.2.2 fun i => ?_)
      by_cases hi : i = j
      · subst hi
        rw [Cells.get_of_lt hc'.2.2.2 (by omega), Cells.get_of_lt hd'.2.2.2 (by omega)]
      · have := h i
        rwa [Cells.get_cons, if_neg hi, Cells.get_cons, if_neg hi] at this

/-! ### Memory -/

@[simp] theorem Memory.wf_nil : Memory.wf [] = true := rfl

/-- Every address is inside the memory (R62), so every write keeps the canonical form. -/
theorem Memory.wf_write {m : Memory} (h : m.wf = true) (a : Addr) (v : Byte) : (m.write a v).wf = true :=
  Cells.wf_put h (by have := a.isLt; simpa [Config.memBytes] using this) v

/-- A read after a write: the byte written, or the byte that was there. -/
theorem Memory.read_write {m : Memory} (h : m.wf = true) (a : Addr) (v : Byte) (x : Addr) :
    (m.write a v).read x = if x = a then v else m.read x := by
  have := Cells.get_put (size := Config.memBytes) h a.toNat v x.toNat
  simpa [Memory.read, Memory.write, BitVec.toNat_inj] using this

theorem Memory.wf_writeBytes (bytes : List Byte) {m : Memory} (h : m.wf = true) (a : Addr) :
    (m.writeBytes a bytes).wf = true := by
  induction bytes generalizing m a with
  | nil => exact h
  | cons v rest ih => exact ih (Memory.wf_write h a v) (a + 1)

/-- Canonical memories that read the same at every address are equal. -/
theorem Memory.ext_of_read {m m' : Memory} (h : m.wf = true) (h' : m'.wf = true)
    (hr : ∀ a, Memory.read m a = Memory.read m' a) : m = m' := by
  refine Cells.ext_of_get h h' fun i => ?_
  by_cases hi : i < 2 ^ 24
  · have := hr (BitVec.ofNat 24 i)
    rwa [Memory.read, Memory.read, BitVec.toNat_ofNat, Nat.mod_eq_of_lt hi] at this
  · have hi' : Config.memBytes ≤ i := Nat.le_of_not_lt hi
    rw [Cells.get_of_ge h hi', Cells.get_of_ge h' hi']

/-- Writing a byte that is already there changes nothing. -/
theorem Memory.write_read {m : Memory} (h : m.wf = true) (a : Addr) : m.write a (m.read a) = m := by
  refine Memory.ext_of_read (Memory.wf_write h a _) h fun x => ?_
  rw [Memory.read_write h]
  split_ifs with hx
  · rw [hx]
  · rfl

end Sys2Proof.Machine
end

