-- ==== Sys2Proof/Laws/State.lean ====
section
/-! SUPPORT. One lemma per field per update of State, each true by rfl, so that no proof unfolds a record update. -/

namespace Sys2Proof.Machine

/-! ### setMem -/

@[simp] theorem State.setMem_mem (s : State) (m : Memory) : (s.setMem m).mem = m := rfl
@[simp] theorem State.setMem_keys (s : State) (m : Memory) : (s.setMem m).keys = s.keys := rfl
@[simp] theorem State.setMem_fb (s : State) (m : Memory) : (s.setMem m).fb = s.fb := rfl
@[simp] theorem State.setMem_ab (s : State) (m : Memory) : (s.setMem m).ab = s.ab := rfl
@[simp] theorem State.setMem_phase (s : State) (m : Memory) : (s.setMem m).phase = s.phase := rfl
@[simp] theorem State.setMem_inbox (s : State) (m : Memory) : (s.setMem m).inbox = s.inbox := rfl
@[simp] theorem State.setMem_outbox (s : State) (m : Memory) : (s.setMem m).outbox = s.outbox := rfl

/-! ### setKeys -/

@[simp] theorem State.setKeys_mem (s : State) (k : Vector Bool 16) : (s.setKeys k).mem = s.mem := rfl
@[simp] theorem State.setKeys_keys (s : State) (k : Vector Bool 16) : (s.setKeys k).keys = k := rfl
@[simp] theorem State.setKeys_fb (s : State) (k : Vector Bool 16) : (s.setKeys k).fb = s.fb := rfl
@[simp] theorem State.setKeys_ab (s : State) (k : Vector Bool 16) : (s.setKeys k).ab = s.ab := rfl
@[simp] theorem State.setKeys_phase (s : State) (k : Vector Bool 16) : (s.setKeys k).phase = s.phase := rfl
@[simp] theorem State.setKeys_inbox (s : State) (k : Vector Bool 16) : (s.setKeys k).inbox = s.inbox := rfl
@[simp] theorem State.setKeys_outbox (s : State) (k : Vector Bool 16) : (s.setKeys k).outbox = s.outbox := rfl

/-! ### setReadOut -/

@[simp] theorem State.setReadOut_mem (s : State) (fb ab : Cells) : (s.setReadOut fb ab).mem = s.mem := rfl
@[simp] theorem State.setReadOut_keys (s : State) (fb ab : Cells) : (s.setReadOut fb ab).keys = s.keys := rfl
@[simp] theorem State.setReadOut_fb (s : State) (fb ab : Cells) : (s.setReadOut fb ab).fb = fb := rfl
@[simp] theorem State.setReadOut_ab (s : State) (fb ab : Cells) : (s.setReadOut fb ab).ab = ab := rfl
@[simp] theorem State.setReadOut_phase (s : State) (fb ab : Cells) : (s.setReadOut fb ab).phase = s.phase := rfl
@[simp] theorem State.setReadOut_inbox (s : State) (fb ab : Cells) : (s.setReadOut fb ab).inbox = s.inbox := rfl
@[simp] theorem State.setReadOut_outbox (s : State) (fb ab : Cells) : (s.setReadOut fb ab).outbox = s.outbox := rfl

/-! ### setPhase -/

@[simp] theorem State.setPhase_mem (s : State) (p : Phase) : (s.setPhase p).mem = s.mem := rfl
@[simp] theorem State.setPhase_keys (s : State) (p : Phase) : (s.setPhase p).keys = s.keys := rfl
@[simp] theorem State.setPhase_fb (s : State) (p : Phase) : (s.setPhase p).fb = s.fb := rfl
@[simp] theorem State.setPhase_ab (s : State) (p : Phase) : (s.setPhase p).ab = s.ab := rfl
@[simp] theorem State.setPhase_phase (s : State) (p : Phase) : (s.setPhase p).phase = p := rfl
@[simp] theorem State.setPhase_inbox (s : State) (p : Phase) : (s.setPhase p).inbox = s.inbox := rfl
@[simp] theorem State.setPhase_outbox (s : State) (p : Phase) : (s.setPhase p).outbox = s.outbox := rfl

/-! ### setInbox -/

@[simp] theorem State.setInbox_mem (s : State) (cs : List Command) : (s.setInbox cs).mem = s.mem := rfl
@[simp] theorem State.setInbox_keys (s : State) (cs : List Command) : (s.setInbox cs).keys = s.keys := rfl
@[simp] theorem State.setInbox_fb (s : State) (cs : List Command) : (s.setInbox cs).fb = s.fb := rfl
@[simp] theorem State.setInbox_ab (s : State) (cs : List Command) : (s.setInbox cs).ab = s.ab := rfl
@[simp] theorem State.setInbox_phase (s : State) (cs : List Command) : (s.setInbox cs).phase = s.phase := rfl
@[simp] theorem State.setInbox_inbox (s : State) (cs : List Command) : (s.setInbox cs).inbox = cs := rfl
@[simp] theorem State.setInbox_outbox (s : State) (cs : List Command) : (s.setInbox cs).outbox = s.outbox := rfl

/-! ### respond -/

@[simp] theorem State.respond_mem (s : State) (r : Response) : (s.respond r).mem = s.mem := rfl
@[simp] theorem State.respond_keys (s : State) (r : Response) : (s.respond r).keys = s.keys := rfl
@[simp] theorem State.respond_fb (s : State) (r : Response) : (s.respond r).fb = s.fb := rfl
@[simp] theorem State.respond_ab (s : State) (r : Response) : (s.respond r).ab = s.ab := rfl
@[simp] theorem State.respond_phase (s : State) (r : Response) : (s.respond r).phase = s.phase := rfl
@[simp] theorem State.respond_inbox (s : State) (r : Response) : (s.respond r).inbox = s.inbox := rfl
@[simp] theorem State.respond_outbox (s : State) (r : Response) : (s.respond r).outbox = r :: s.outbox := rfl

end Sys2Proof.Machine
end

