-- ==== Sys2Proof/Laws/Machine.lean ====
section
/-! SUPPORT. One lemma for each shared operation that says once everything it can do; proofs cite these and do not unfold the step. -/

namespace Sys2Proof.Machine

/-! ### Fetch and decode -/

/-- A concatenation as a number. -/
theorem toNat_append_eq {v w : Nat} (x : BitVec v) (y : BitVec w) :
    (x ++ y).toNat = x.toNat * 2 ^ w + y.toNat := by
  rw [BitVec.toNat_append, ← Nat.shiftLeft_add_eq_or_of_lt y.isLt, Nat.shiftLeft_eq]

/-- The fields of nine joined bytes. -/
theorem decodeWord_joinBytes (b0 b1 b2 b3 b4 b5 b6 b7 b8 : Byte) :
    decodeWord (joinBytes b0 b1 b2 b3 b4 b5 b6 b7 b8) = .bbj (b0 ++ b1 ++ b2) (b3 ++ b4 ++ b5) (b6 ++ b7 ++ b8) := by
  have h0 := b0.isLt; have h1 := b1.isLt; have h2 := b2.isLt; have h3 := b3.isLt; have h4 := b4.isLt
  have h5 := b5.isLt; have h6 := b6.isLt; have h7 := b7.isLt; have h8 := b8.isLt
  simp only [decodeWord, joinBytes, Instr.bbj.injEq]
  refine ⟨?_, ?_, ?_⟩ <;>
  · apply BitVec.eq_of_toNat_eq
    simp only [BitVec.extractLsb'_toNat, Nat.shiftRight_eq_div_pow, toNat_append_eq]
    omega

/-- The instruction at IP is the one its three fields name. -/
theorem decodeWord_fetchWord (m : Memory) (ip : Addr) :
    decodeWord (m.fetchWord ip) = .bbj (m.fieldA ip) (m.fieldB ip) (m.fieldC ip) := by
  rw [Memory.fetchWord, decodeWord_joinBytes]
  simp only [Memory.fieldA, Memory.fieldB, Memory.fieldC, Memory.addr24, BitVec.add_assoc]
  rfl

/-- An instruction is idle where its source is its destination and its jump field is its own address (R84). -/
theorem Memory.idleAt_iff (m : Memory) (ip : Addr) :
    m.idleAt ip = true ↔ m.fieldA ip = m.fieldB ip ∧ m.fieldC ip = ip := by
  simp only [Memory.idleAt, isIdle, Bool.and_eq_true, beq_iff_eq]

/-- The nine bytes of a word, joined, are the word. -/
theorem joinBytes_extract (w : InstrWord) :
    joinBytes (w.extractLsb' 64 8) (w.extractLsb' 56 8) (w.extractLsb' 48 8) (w.extractLsb' 40 8)
      (w.extractLsb' 32 8) (w.extractLsb' 24 8) (w.extractLsb' 16 8) (w.extractLsb' 8 8) (w.extractLsb' 0 8) = w := by
  have hdm : ∀ n : Nat, n / 2 ^ 8 * 2 ^ 8 + n % 2 ^ 8 = n := fun n => by omega
  have hdd : ∀ n i j k : Nat, i + j = k → n / 2 ^ i / 2 ^ j = n / 2 ^ k := fun n i j k e => by
    rw [Nat.div_div_eq_div_mul, ← Nat.pow_add, e]
  have := w.isLt
  apply BitVec.eq_of_toNat_eq
  simp only [joinBytes, BitVec.extractLsb'_toNat, Nat.shiftRight_eq_div_pow, toNat_append_eq]
  rw [Nat.mod_eq_of_lt (a := w.toNat / 2 ^ 64) (by omega)]
  rw [← hdd _ 56 8 64 rfl, hdm, ← hdd _ 48 8 56 rfl, hdm, ← hdd _ 40 8 48 rfl, hdm, ← hdd _ 32 8 40 rfl, hdm,
    ← hdd _ 24 8 32 rfl, hdm, ← hdd _ 16 8 24 rfl, hdm, ← hdd _ 8 8 16 rfl, hdm, ← hdd _ 0 8 8 rfl, hdm,
    Nat.pow_zero, Nat.div_one]

/-- A word stored at an address is the word fetched there, over the top of memory too. -/
theorem Memory.fetchWord_writeBytes {m : Memory} (h : m.wf = true) (ip : Addr) (w : InstrWord) :
    (m.writeBytes ip (wordBytes w)).fetchWord ip = w := by
  conv_rhs => rw [← joinBytes_extract w]
  have w1 := Memory.wf_write h ip (w.extractLsb' 64 8)
  have w2 := Memory.wf_write w1 (ip + 1) (w.extractLsb' 56 8)
  have w3 := Memory.wf_write w2 (ip + 1 + 1) (w.extractLsb' 48 8)
  have w4 := Memory.wf_write w3 (ip + 1 + 1 + 1) (w.extractLsb' 40 8)
  have w5 := Memory.wf_write w4 (ip + 1 + 1 + 1 + 1) (w.extractLsb' 32 8)
  have w6 := Memory.wf_write w5 (ip + 1 + 1 + 1 + 1 + 1) (w.extractLsb' 24 8)
  have w7 := Memory.wf_write w6 (ip + 1 + 1 + 1 + 1 + 1 + 1) (w.extractLsb' 16 8)
  have w8 := Memory.wf_write w7 (ip + 1 + 1 + 1 + 1 + 1 + 1 + 1) (w.extractLsb' 8 8)
  simp only [wordBytes, Memory.writeBytes, Memory.fetchWord]
  simp only [Memory.read_write w8, Memory.read_write w7, Memory.read_write w6, Memory.read_write w5,
    Memory.read_write w4, Memory.read_write w3, Memory.read_write w2, Memory.read_write w1, Memory.read_write h]
  simp [BitVec.add_assoc]

/-- With this hardware's parameter the fetch always gives the word at IP. -/
theorem fetch_config (m : Memory) (ip : Addr) : fetch Config.fetchOverrun m ip = .ok (m.fetchWord ip) :=
  rfl

/-! ### The instruction -/

/-- In an instruction loop BBJ always goes on, in one of two ways. -/
theorem execBbj_executing {a b c : Addr} {s : State} {f : Frame} (h : s.phase = .executing f) :
    execBbj a b c s = .next (if isIdle a b c f.ip then s.endExecution f .idle else copyAndJump a b c f s) := by
  unfold execBbj
  rw [h]
  simp only
  split <;> rfl

@[simp] theorem copyAndJump_mem (a b c : Addr) (f : Frame) (s : State) :
    (copyAndJump a b c f s).mem = s.mem.write b (s.mem.read a) := rfl
@[simp] theorem copyAndJump_keys (a b c : Addr) (f : Frame) (s : State) : (copyAndJump a b c f s).keys = s.keys := rfl
@[simp] theorem copyAndJump_fb (a b c : Addr) (f : Frame) (s : State) : (copyAndJump a b c f s).fb = s.fb := rfl
@[simp] theorem copyAndJump_ab (a b c : Addr) (f : Frame) (s : State) : (copyAndJump a b c f s).ab = s.ab := rfl
@[simp] theorem copyAndJump_phase (a b c : Addr) (f : Frame) (s : State) :
    (copyAndJump a b c f s).phase = .executing ⟨c, f.n + 1⟩ := rfl
@[simp] theorem copyAndJump_inbox (a b c : Addr) (f : Frame) (s : State) : (copyAndJump a b c f s).inbox = s.inbox := rfl
@[simp] theorem copyAndJump_outbox (a b c : Addr) (f : Frame) (s : State) :
    (copyAndJump a b c f s).outbox = s.outbox := rfl

/-! ### The step -/

/-- What a step of the instruction loop does: the budget's end, the idle end, or one copy and jump. -/
theorem step_executing {s : State} {f : Frame} (h : s.phase = .executing f) :
    step s = .next (if f.n < Config.budget then
        (if s.mem.idleAt f.ip then s.endExecution f .idle
          else copyAndJump (s.mem.fieldA f.ip) (s.mem.fieldB f.ip) (s.mem.fieldC f.ip) f s)
      else s.endExecution f .budget) := by
  have hs : step s = stepExecuting f s := by rw [step, h]
  rw [hs, stepExecuting, fetch_config]
  split
  · simp only [decodeWord_fetchWord, exec, execBbj_executing h]
    rfl
  · rfl

/-- What a step does between frames. -/
theorem step_waiting_nil {s : State} (h : s.phase = .waiting) (hi : s.inbox = []) : step s = .next s := by
  rw [step, h]
  simp only [stepWaiting, hi]

theorem step_waiting_cons {s : State} {c : Command} {rest : List Command} (h : s.phase = .waiting)
    (hi : s.inbox = c :: rest) : step s = .next (beginCommand c (s.setInbox rest)) := by
  rw [step, h]
  simp only [stepWaiting, hi]

/-- What the step does that ends a frame. -/
theorem step_readOut {s : State} {f : Frame} {why : EndReason} (h : s.phase = .readOut f why) :
    step s = .next (finishFrame s) := by
  rw [step, h]

/-- Everything one step can do. -/
theorem step_cases {s t : State} (h : step s = .next t) :
    (s.phase = .waiting ∧ s.inbox = [] ∧ t = s) ∨
    (∃ c rest, s.phase = .waiting ∧ s.inbox = c :: rest ∧ t = beginCommand c (s.setInbox rest)) ∨
    (∃ f, s.phase = .executing f ∧ ¬ f.n < Config.budget ∧ t = s.endExecution f .budget) ∨
    (∃ f, s.phase = .executing f ∧ f.n < Config.budget ∧ s.mem.idleAt f.ip = true ∧ t = s.endExecution f .idle) ∨
    (∃ f, s.phase = .executing f ∧ f.n < Config.budget ∧ s.mem.idleAt f.ip = false ∧
      t = copyAndJump (s.mem.fieldA f.ip) (s.mem.fieldB f.ip) (s.mem.fieldC f.ip) f s) ∨
    (∃ f why, s.phase = .readOut f why ∧ t = finishFrame s) := by
  cases hp : s.phase with
  | waiting =>
    cases hi : s.inbox with
    | nil =>
      rw [step_waiting_nil hp hi] at h
      exact .inl ⟨rfl, rfl, (Host.Outcome.next.inj h).symm⟩
    | cons c rest =>
      rw [step_waiting_cons hp hi] at h
      exact .inr (.inl ⟨c, rest, rfl, rfl, (Host.Outcome.next.inj h).symm⟩)
  | executing f =>
    rw [step_executing hp] at h
    have h := (Host.Outcome.next.inj h).symm
    by_cases hn : f.n < Config.budget
    · rw [if_pos hn] at h
      cases hid : s.mem.idleAt f.ip
      · rw [if_neg (by simp [hid])] at h
        exact .inr (.inr (.inr (.inr (.inl ⟨f, rfl, hn, hid, h⟩))))
      · rw [if_pos hid] at h
        exact .inr (.inr (.inr (.inl ⟨f, rfl, hn, hid, h⟩)))
    · rw [if_neg hn] at h
      exact .inr (.inr (.inl ⟨f, rfl, hn, h⟩))
  | readOut f why =>
    rw [step_readOut hp] at h
    exact .inr (.inr (.inr (.inr (.inr ⟨f, why, rfl, (Host.Outcome.next.inj h).symm⟩))))

/-! ### Key packing -/

theorem Memory.wf_packKeys {m : Memory} (h : m.wf = true) (keys : Vector Bool 16) : (m.packKeys keys).wf = true :=
  Memory.wf_write (Memory.wf_write h _ _) _ _

/-- What the key packing does: bytes 0 and 1 are written, every other byte is kept. -/
theorem Memory.read_packKeys {m : Memory} (h : m.wf = true) (keys : Vector Bool 16) (x : Addr) :
    (m.packKeys keys).read x =
      if x = 0 then keyByte keys 0 else if x = 1 then keyByte keys 8 else m.read x := by
  rw [Memory.packKeys, Memory.read_write (Memory.wf_write h _ _), Memory.read_write h]
  by_cases h1 : x = 1
  · subst h1
    rfl
  · rw [if_neg h1, if_neg h1]

/-! ### The read-out -/

/-- What the end of a frame does to each field. -/
@[simp] theorem finishFrame_mem (s : State) : (finishFrame s).mem = s.mem := rfl
@[simp] theorem finishFrame_keys (s : State) : (finishFrame s).keys = s.keys := rfl
@[simp] theorem finishFrame_fb (s : State) : (finishFrame s).fb = s.mem.framePage := rfl
@[simp] theorem finishFrame_ab (s : State) : (finishFrame s).ab = s.mem.audioBlock := rfl
@[simp] theorem finishFrame_phase (s : State) : (finishFrame s).phase = .waiting := rfl
@[simp] theorem finishFrame_inbox (s : State) : (finishFrame s).inbox = s.inbox := rfl
@[simp] theorem finishFrame_outbox (s : State) : (finishFrame s).outbox = .ok :: s.outbox := rfl

/-- The bytes of the frame page and of the audio block, by index from the page's first address. -/
theorem Memory.get_framePage (m : Memory) (i : Nat) (hi : i < Config.fbBytes) :
    Cells.get m.framePage i = Cells.get m ((fbAddr m.fbPage 0 0).toNat + i) :=
  Cells.get_window _ _ m i hi

theorem Memory.get_audioBlock (m : Memory) (i : Nat) (hi : i < Config.audioBytes) :
    Cells.get m.audioBlock i = Cells.get m ((audAddr m.audPage 0).toNat + i) :=
  Cells.get_window _ _ m i hi

/-- The read-out of a canonical memory is canonical. -/
theorem Memory.wf_framePage {m : Memory} (h : m.wf = true) : Cells.wf Config.fbBytes m.framePage = true :=
  Cells.wf_window _ _ h

theorem Memory.wf_audioBlock {m : Memory} (h : m.wf = true) : Cells.wf Config.audioBytes m.audioBlock = true :=
  Cells.wf_window _ _ h

/-! ### Commands -/

/-- Every command keeps the canonical form of the memory. -/
theorem wf_beginCommand {c : Command} {s : State} (h : s.mem.wf = true) : (beginCommand c s).mem.wf = true := by
  cases c with
  | load bytes =>
    simp only [beginCommand, hostLoad]
    split_ifs with hl
    · exact h
    · exact Cells.wf_putBytes bytes h (by omega)
  | reset => rfl
  | setKey index pressed =>
    simp only [beginCommand, hostSetKey]
    split_ifs <;> exact h
  | advanceFrame => exact Memory.wf_packKeys h s.keys
  | framebuffer => exact h
  | audioBlock => exact h

end Sys2Proof.Machine
end

