-- ==== Sys2Proof/Laws/PerInstr.lean ====
section
/-! SUPPORT. The statements made of every instruction as syntax, one lemma per constructor. -/

namespace Sys2Proof.Laws.Format

/-- Every instruction is well formed and nine bytes long (R80, R83). -/
def Statement (i : Instr) : Prop :=
  i.wellFormed = true ∧ (encode i).length = 9

theorem bbj (a b c : Addr) : Statement (.bbj a b c) :=
  ⟨rfl, rfl⟩

end Sys2Proof.Laws.Format
end

