-- ==== Sys2Proof/Laws/Run.lean ====
section
/-! SUPPORT. Runs of several steps: they compose, and they have one end. -/

namespace Sys2Proof.Machine

theorem Steps.one {s t : State} (h : step s = .next t) : Steps 1 s t :=
  ⟨t, h, rfl⟩

theorem Steps.trans {a b : Nat} {s t u : State} (h : Steps a s t) (h' : Steps b t u) : Steps (a + b) s u := by
  induction a generalizing s with
  | zero =>
    cases h
    rwa [Nat.zero_add]
  | succ a ih =>
    obtain ⟨v, hv, hs⟩ := h
    rw [Nat.succ_add]
    exact ⟨v, hv, ih hs⟩

theorem Steps.unique {k : Nat} {s t u : State} (h : Steps k s t) (h' : Steps k s u) : t = u := by
  induction k generalizing s with
  | zero => exact h.symm.trans h'
  | succ k ih =>
    obtain ⟨v, hv, hs⟩ := h
    obtain ⟨v', hv', hs'⟩ := h'
    rw [hv] at hv'
    cases hv'
    exact ih hs hs'

/-- The loop of R130 keeps the canonical form of the memory. -/
theorem Block.wf_loop (left : Nat) {m : Memory} (f : Frame) (h : m.wf = true) : (Block.loop left m f).mem.wf = true := by
  induction left generalizing m f with
  | zero => exact h
  | succ left ih =>
    simp only [Block.loop]
    split
    · exact h
    · exact ih _ (Memory.wf_write h _ _)

end Sys2Proof.Machine
end

