-- ==== Sys2Proof/Tests/Slice0.lean ====
section
/-! SUPPORT. Tests from the spec's own vectors (95_test_vectors.md), and for every statement with hypotheses a witness that meets them. -/

namespace Sys2Proof.Tests
open Sys2Proof Sys2Proof.Machine

/-! ### Helpers -/

/-- A memory that holds the given bytes from each given address up. -/
def memOf (blocks : List (Addr × List Byte)) : Memory :=
  blocks.foldl (fun m b => m.writeBytes b.1 b.2) []

/-- A state in the instruction loop at `ip` with N = 0. -/
def running (ip : Addr) (m : Memory) : State :=
  { State.reset with mem := m, phase := .executing ⟨ip, 0⟩ }

/-- A state between frames with a memory and the host's commands. -/
def waitingWith (m : Memory) (cs : List Command) : State :=
  { State.reset with mem := m, inbox := cs }

/-- The state after `k` steps, or the state before where the machine stops. -/
def after (k : Nat) (s : State) : State :=
  match Host.Core.run Sys2Proof.core k s with
  | .next t => t
  | .fault _ => s
  | .refused _ => s

/-! ### Decoding: words written out from R81 -/

/-- P2: `0A 00 00 05 00 00 00 00 11`. -/
theorem test_decode_p2 :
    decode [0x0A, 0x00, 0x00, 0x05, 0x00, 0x00, 0x00, 0x00, 0x11] = .ok (.bbj 0x0A0000 0x050000 0x000011, []) := by
  rfl

/-- R81: each field's first byte is its bits 23:16. All nine bytes differ. -/
theorem test_decode_distinct_bytes :
    decode [0x12, 0x34, 0x56, 0x78, 0x9A, 0xBC, 0xDE, 0xF0, 0x01, 0xFF] =
      .ok (.bbj 0x123456 0x789ABC 0xDEF001, [0xFF]) := by
  rfl

theorem test_decode_refuses_eight_bytes : decode [0, 0, 0, 0, 0, 0, 0, 0] = .error .tooFewBytes := by
  rfl

/-- R88: A = bits 71:48, B = bits 47:24, C = bits 23:0. -/
theorem test_decode_table_word : decodeTableWord 72 0x123456789ABCDEF001 = some (.bbj 0x123456 0x789ABC 0xDEF001) := by
  decide

theorem test_encode_p4 :
    encode (.bbj 0x000300 0x000108 0x000110) = [0x00, 0x03, 0x00, 0x00, 0x01, 0x08, 0x00, 0x01, 0x10] := by
  decide

/-- There is no check an instruction could fail (R83), so no ill-formed term exists. -/
theorem test_every_instruction_well_formed (i : Instr) : i.wellFormed = true := by
  cases i
  rfl

/-! ### Decoders of addresses: V1, V7, V8 -/

theorem test_addr24_v1 : (memOf [(0x10, [0x12, 0x34, 0x56])]).addr24 0x10 = 0x123456 := by decide
theorem test_fbaddr_v7 : fbAddr 0x12 0x34 0x56 = 0x125634 := by decide
theorem test_audaddr_v8 : audAddr 0x0100 0x00 = 0x010000 := by decide
theorem test_audpage_v1 : (memOf [(6, [0x12, 0x34])]).audPage = 0x1234 := by decide

/-! ### Idle check: V3 -/

theorem test_idle_v3_first_rows : isIdle 0 0 0 0 = true ∧ isIdle 0x123456 0x123456 0x100 0x100 = true := by decide
theorem test_idle_v3_other_rows :
    isIdle 0x123456 0x123457 0x100 0x100 = false ∧ isIdle 0x123456 0x123456 0x109 0x100 = false ∧
      isIdle 0 0 0 0x100 = false := by decide

/-! ### BBJ: V4 -/

/-- V4, first row, through the step. -/
theorem test_bbj_v4_copy :
    let t := after 1 (running 0x8 (memOf [(0x8, [0x0A, 0, 0, 0x05, 0, 0, 0, 0, 0x11]), (0x0A0000, [0x2A])]))
    t.mem.read 0x050000 = 0x2A ∧ t.phase = .executing ⟨0x11, 1⟩ := by decide

/-- V4, second row: B is the low byte of its own C; the jump uses the fetched C. -/
theorem test_bbj_v4_rewrites_own_jump :
    let t := after 1 (running 0x100 (memOf [(0x100, [0, 3, 0, 0, 1, 8, 0, 1, 0x10]), (0x300, [0x20])]))
    t.mem.read 0x108 = 0x20 ∧ t.phase = .executing ⟨0x110, 1⟩ := by decide

/-- P7: an instruction across the top of memory. -/
theorem test_bbj_p7_wraps :
    let m := memOf [(0xFFFFFB, [0x0A, 0, 0, 0x05, 0]), (2, [0xFF, 0xFF, 0xFB, 0x05]), (0x0A0000, [0x3C])]
    let t := after 1 (running 0xFFFFFB m)
    t.mem.read 0x050000 = 0x3C ∧ t.phase = .executing ⟨0x00FFFF, 1⟩ := by decide

/-! ### Frames: V5, P1, P2 -/

theorem test_keys_v5 :
    let k := ((Vector.replicate 16 false).setIfInBounds 0 true).setIfInBounds 15 true
    keyByte k 0 = 0x01 ∧ keyByte k 8 = 0x80 := by decide

/-- P1 (b): key 0 held on an empty machine: one instruction, then idle; the key bit is overwritten. -/
theorem test_p1_b :
    let t := after 3 (waitingWith [] [.setKey 0 true, .advanceFrame])
    t.mem = [] ∧ t.phase = .executing ⟨0, 1⟩ := by decide

/-- P2: one byte to the screen, a whole frame. -/
theorem test_p2_frame :
    let m := memOf [(2, [0, 0, 8, 5]), (8, [0x0A, 0, 0, 5, 0, 0, 0, 0, 0x11]), (0x11, [0, 0, 0, 0, 0, 0, 0, 0, 0x11]),
      (0x0A0000, [0x2A])]
    let t := after 4 (waitingWith m [.advanceFrame])
    t.fb = [(0, 0x2A)] ∧ t.sample 0x08 = 0x0A ∧ t.phase = .waiting ∧ t.outbox = [.ok] := by decide

/-- P2's first instruction, placed where the next step after reset fetches. -/
theorem test_placed_word_runs_after_reset :
    let t := after 1 (State.reset.withFetchWord 72 0x0A0000050000000011)
    t.phase = .executing ⟨0x11, 1⟩ := by decide

/-- V6: the budget ends the loop with nothing fetched. -/
theorem test_budget_ends_loop :
    step ({ running 0x100 [] with phase := .executing ⟨0x100, 65536⟩ } : State) =
      .next ({ running 0x100 [] with phase := .readOut ⟨0x100, 65536⟩ .budget } : State) := by
  rfl

/-! ### Host commands: V9 -/

theorem test_load_v9 :
    let t := after 1 (waitingWith (memOf [(0, [0xAA, 0xBB, 0xCC, 0xDD])]) [.load [0x11, 0x22]])
    t.mem = [(0, 0x11), (1, 0x22), (2, 0xCC), (3, 0xDD)] ∧ t.outbox = [.ok] := by decide

theorem test_set_key_v9 :
    (after 1 (waitingWith [] [.setKey 16 true])).outbox = [.err .invalidKeyIndex] ∧
      (after 1 (waitingWith [] [.setKey (-1) true])).outbox = [.err .invalidKeyIndex] ∧
      (after 1 (waitingWith [] [.setKey 15 true])).keys[15] = true := by decide

theorem test_reset_v9 :
    (after 1 (waitingWith [(3, 1)] [.reset])).mem = [] := by decide

/-! ### Outside the block: S9, the assembler on P3 -/

theorem test_colour_s9 :
    shade 43 = .levels 1 1 1 ∧ shade 215 = .levels 5 5 5 ∧ shade 216 = .black ∧ shade 6 = .levels 0 1 0 := by decide

/-- S8. -/
theorem test_rate_s8 : Config.audioBytes * Config.frameRateHz = Config.audioRateHz := by decide

/-- R171: 128 is silence under the working assumption. -/
theorem test_sample_silence : sampleLevel Config.audioSampleFormat 128 = 0 ∧ sampleLevel Config.audioSampleFormat 0 = -128 := by
  decide

/-- P3's i1 and i2, at 0 here, with a label and an offset. -/
theorem test_assemble_p3 :
    Asm.assemble [.bbj (.number 0x200) (.label "i2" 2) (.label "i2" 0), .label "i2",
        .bbj (.number 0x010000) (.number 0x200) (.here 9), .idle] =
      .ok [0, 2, 0, 0, 0, 0x0B, 0, 0, 9, 1, 0, 0, 0, 2, 0, 0, 0, 0x12, 0, 0, 0, 0, 0, 0, 0, 0, 0x12] := by decide

theorem test_assemble_refuses_jmp_self : Asm.assemble [.jmp (.here 0)] = .error .jumpToSelf := by decide

/-! ### Witnesses: for every statement with hypotheses, concrete states and operands that meet them together -/

/-- P2's memory. -/
def memP2 : Memory :=
  memOf [(2, [0, 0, 8, 5]), (8, [0x0A, 0, 0, 5, 0, 0, 0, 0, 0x11]), (0x11, [0, 0, 0, 0, 0, 0, 0, 0, 0x11]), (0x0A0000, [0x2A])]

/-- P6's memory: a self-loop that never idles. -/
def memP6 : Memory :=
  memOf [(2, [0, 1, 0]), (0x100, [0, 3, 0, 0, 3, 1, 0, 1, 0]), (0x300, [0x5A])]

/-- P2 about to copy. -/
def runP2 : State := running 8 memP2

/-- P2 about to idle. -/
def idleP2 : State := running 0x11 memP2

/-- P2 about to start a frame. -/
def startP2 : State := waitingWith memP2 [.advanceFrame]

/-- P2 about to read out. -/
def readP2 : State := { running 0x11 memP2 with phase := .readOut ⟨0x11, 1⟩ .idle }

theorem witness_DecodeAndEncodeAgree :
    (Instr.bbj 0xFFFFFF 0 1).wellFormed = true ∧
      decode [0xFF, 0xFF, 0xFF, 0, 0, 0, 0, 0, 1, 7] = .ok (.bbj 0xFFFFFF 0 1, [7]) := ⟨rfl, rfl⟩

theorem witness_DecoderConsumesNineBytes :
    (List.replicate 8 (0 : Byte)).length < 9 ∧ 9 ≤ (List.replicate 9 (0 : Byte)).length := by decide

theorem witness_TableNumberingReadsTheFields : 2 ^ 72 - 1 < 2 ^ 72 := by decide

theorem witness_IdleConditionOfAWord : (0 : Addr) ≠ 0xFFFFFF := by decide

theorem witness_PseudoInstructionsIdleOnlyAsIdle : (0x11 : Addr) ≠ 0x8 := by decide

theorem witness_WrittenByteShowsInCoveringValues : memP2.wf = true := by decide

theorem witness_FetchedWordIsNineBytesWrapping : 0 < 9 ∧ 8 < 9 := by decide

theorem witness_FetchOverrunParameter :
    0xFFFFF8 ≤ (0xFFFFF8 : Addr).toNat ∧ (0xFFFFF7 : Addr).toNat < 0xFFFFF8 := by decide

theorem witness_StepRunsTheDecodedInstruction :
    runP2.phase = .executing ⟨8, 0⟩ ∧ 0 < Config.budget ∧
      decode (runP2.mem.fetchBytes 8) = .ok (.bbj 0x0A0000 0x050000 0x11, []) ∧
      (Instr.bbj 0x0A0000 0x050000 0x11).wellFormed = true := ⟨rfl, by decide, by rfl, rfl⟩

/-- At the last N that has budget left. -/
theorem witness_StepFetchesTheThreeFields :
    let s : State := { runP2 with phase := .executing ⟨8, 65535⟩ }
    s.phase = .executing ⟨8, 65535⟩ ∧ 65535 < Config.budget := ⟨rfl, by decide⟩

/-- Both A ≠ B, and the corner A = B with C ≠ IP. -/
theorem witness_BbjCopiesOneByteAndJumps :
    runP2.phase = .executing ⟨8, 0⟩ ∧ isIdle 0x0A0000 0x050000 0x11 8 = false ∧ isIdle 8 8 9 8 = false ∧
      runP2.mem.wf = true := by decide

theorem witness_IdleBbjEndsTheInstructionLoop : idleP2.phase = .executing ⟨0x11, 0⟩ ∧ (0x11 : Addr) = (⟨0x11, 0⟩ : Frame).ip := by
  decide

theorem witness_BbjChangesOnlyItsDestinationByte :
    runP2.mem.wf = true ∧ runP2.phase = .executing ⟨8, 0⟩ ∧
      exec (.bbj 0x0A0000 0x050000 0x11) runP2 = .next (copyAndJump 0x0A0000 0x050000 0x11 ⟨8, 0⟩ runP2) ∧
      isIdle 0x0A0000 0x050000 0x11 8 = false ∧
      exec (.bbj 0 0 8) runP2 = .next (runP2.endExecution ⟨8, 0⟩ .idle) ∧ isIdle 0 0 8 8 = true :=
  ⟨by decide, rfl, rfl, by decide, rfl, by decide⟩

theorem witness_BbjRefusedOnlyOutsideTheLoop :
    exec (.bbj 0 0 0) startP2 = .refused .noInstructionLoop ∧ exec (.bbj 0 0 0) readP2 = .refused .noInstructionLoop :=
  ⟨rfl, rfl⟩

theorem witness_FetchReadWriteJumpInOrder :
    runP2.mem.wf = true ∧ runP2.phase = .executing ⟨8, 0⟩ ∧ 0 < Config.budget ∧ runP2.mem.idleAt 8 = false := by decide

/-- P6, and the last `j` the budget leaves room for. -/
theorem witness_SelfLoopRepeatsOneCopy :
    memP6.wf = true ∧ (running 0x100 memP6).phase = .executing ⟨0x100, 0⟩ ∧
      memP6.fieldA 0x100 ≠ memP6.fieldB 0x100 ∧ memP6.fieldC 0x100 = 0x100 ∧
      (∀ k : Fin 9, memP6.fieldB 0x100 ≠ 0x100 + BitVec.ofNat 24 k) ∧ 0 + 65535 + 1 ≤ Config.budget := by decide

theorem witness_InstructionsCannotSeeKeysOrReadOut :
    runP2.phase = .executing ⟨8, 0⟩ ∧ ∃ t, step runP2 = .next t := ⟨rfl, _, rfl⟩

theorem witness_FrameStartPacksTheKeys :
    (startP2.mem.wf = true ∧ startP2.phase = .waiting ∧ startP2.inbox = .advanceFrame :: []) ∧
      (runP2.phase ≠ .waiting ∧ ∃ t, step runP2 = .next t) ∧
      ∃ k : Vector Bool 16, ∀ j : Fin 16, k[j] = (j == 0 || j == 3 || j == 9) :=
  ⟨by decide, ⟨by decide, _, rfl⟩,
    ⟨(((Vector.replicate 16 false).setIfInBounds 0 true).setIfInBounds 3 true).setIfInBounds 9 true, by decide⟩⟩

theorem witness_FrameStartsAtPc :
    startP2.mem.wf = true ∧ startP2.phase = .waiting ∧ startP2.inbox = .advanceFrame :: [] := by decide

/-- The three clauses at their boundary values of N. -/
theorem witness_OnlyIdleOrBudgetEndsTheLoop :
    ((running 8 memP2).phase = .executing ⟨8, 0⟩ ∧ 65536 ≤ Config.budget) ∧
      (65535 < 65536 ∧ memP2.idleAt 0x11 = true) ∧ (65535 < 65536 ∧ memP2.idleAt 8 = false) := by decide

theorem witness_ReadOutCopiesThePages : readP2.phase = .readOut ⟨0x11, 1⟩ .idle := rfl

theorem witness_WindowReadOutEqualsTheCellLoops :
    memP2.wf = true ∧ Cells.wf Config.fbBytes [(0, 1), (65535, 0xFF)] = true ∧
      Cells.wf Config.audioBytes [(255, 1)] = true := by decide

theorem witness_ReadOutShowsMemoryUntilItIsWritten :
    (readP2.phase = .readOut ⟨0x11, 1⟩ .idle ∧ step readP2 = .next (finishFrame readP2)) ∧
      let s := waitingWith [] [.setKey 0 true]
      s.phase = .waiting ∧ ShowsMemory s ∧ (∃ t, step s = .next t) ∧ (∀ bytes rest, s.inbox ≠ .load bytes :: rest) ∧
        (∀ rest, s.inbox ≠ .reset :: rest) ∧ (∀ rest, s.inbox ≠ .advanceFrame :: rest) :=
  ⟨⟨rfl, rfl⟩, rfl, ⟨fun _ _ => rfl, fun _ => rfl⟩, ⟨_, rfl⟩, by simp [waitingWith], by simp [waitingWith], by simp [waitingWith]⟩

theorem witness_FrameExecutesAtMostItsBudget : startP2.phase = .waiting ∧ startP2.inbox = .advanceFrame :: [] := by decide

theorem witness_FrameDependsOnMemoryAndKeysOnly :
    let b : Block := startP2.block
    let b' : Block := { b with fb := [(1, 1)], ab := [(2, 2)] }
    b.mem = b'.mem ∧ b.keys = b'.keys ∧ b.mem.wf = true ∧ Cells.wf Config.fbBytes b.fb = true ∧
      Cells.wf Config.fbBytes b'.fb = true ∧ Cells.wf Config.audioBytes b.ab = true ∧
      Cells.wf Config.audioBytes b'.ab = true ∧ b ≠ b' := by decide

theorem witness_EarlyExitLeavesTheSameMemory : memP6.wf = true := by decide

theorem startP2_inv : Inv startP2 := ⟨by decide, rfl, rfl, trivial⟩

theorem witness_FrameStepsRefineTheAtomicFrame :
    Inv startP2 ∧ startP2.phase = .waiting ∧ startP2.inbox = .advanceFrame :: [] := ⟨startP2_inv, rfl, rfl⟩

/-- A script of a load, a key, two frames and a read. -/
theorem witness_ScriptRunsAsAtomicCommands :
    let s := waitingWith [] [.load [0, 0, 0, 0, 8, 5], .setKey 3 true, .advanceFrame, .advanceFrame, .framebuffer]
    Inv s ∧ s.phase = .waiting := ⟨⟨rfl, rfl, rfl, trivial⟩, rfl⟩

/-- At the greatest length that loads, and addresses on both sides of a length. -/
theorem witness_LoadWritesAPrefix :
    let s := waitingWith memP2 [.load (List.replicate (2 ^ 24) 1)]
    s.mem.wf = true ∧ s.phase = .waiting ∧ s.inbox = .load (List.replicate (2 ^ 24) 1) :: [] ∧
      (List.replicate (2 ^ 24) (1 : Byte)).length ≤ 2 ^ 24 ∧ (1 : Addr).toNat < [(7 : Byte), 8].length ∧
      ¬ (2 : Addr).toNat < [(7 : Byte), 8].length :=
  ⟨by decide, rfl, rfl, by rw [List.length_replicate], by decide, by decide⟩

theorem witness_HostErrorsChangeNothing :
    let s := waitingWith memP2 [.load (List.replicate (2 ^ 24 + 1) 1)]
    (s.phase = .waiting ∧ s.inbox = .load (List.replicate (2 ^ 24 + 1) 1) :: [] ∧
      2 ^ 24 < (List.replicate (2 ^ 24 + 1) (1 : Byte)).length) ∧
      (waitingWith [] [.setKey 16 true]).inbox = .setKey 16 true :: [] ∧
      (waitingWith [] [.setKey (-1) true]).inbox = .setKey (-1) true :: [] ∧ ((-1 : Int) < 0 ∧ (16 : Int) ≤ 16) :=
  ⟨⟨rfl, rfl, by rw [List.length_replicate]; decide⟩, rfl, rfl, by decide⟩

theorem witness_SetKeySetsOneFlag :
    let s := waitingWith [] [.setKey ((15 : Fin 16).val : Int) false]
    (s.phase = .waiting ∧ s.inbox = .setKey ((15 : Fin 16).val : Int) false :: [] ∧ s.keys[(15 : Fin 16)] = false) ∧
      ¬ ((0 : Int) ≤ 16 ∧ (16 : Int) < 16) ∧ ¬ ((0 : Int) ≤ -1 ∧ (-1 : Int) < 16) := by decide

theorem witness_ResetClearsTheBlock :
    (waitingWith memP2 [.reset]).phase = .waiting ∧ (waitingWith memP2 [.reset]).inbox = .reset :: [] := by decide

theorem witness_FramebufferReturnsRowsInOrder :
    (waitingWith memP2 [.framebuffer]).phase = .waiting ∧ (waitingWith memP2 [.framebuffer]).inbox = .framebuffer :: [] := by
  decide

theorem witness_AudioBlockReturnsSamplesInOrder :
    (waitingWith memP2 [.audioBlock]).phase = .waiting ∧ (waitingWith memP2 [.audioBlock]).inbox = .audioBlock :: [] := by
  decide

theorem witness_BlockWaitsForTheHost : (waitingWith memP2 []).phase = .waiting ∧ (waitingWith memP2 []).inbox = [] := by decide

/-- One state for each phase, the loop at N = 65536 too. -/
theorem witness_EveryStepKeepsTheInvariant :
    (Inv startP2 ∧ ∃ t, step startP2 = .next t) ∧ (Inv runP2 ∧ ∃ t, step runP2 = .next t) ∧
      (Inv ({ runP2 with phase := .executing ⟨8, 65536⟩ } : State) ∧
        ∃ t, step ({ runP2 with phase := .executing ⟨8, 65536⟩ } : State) = .next t) ∧
      (Inv readP2 ∧ ∃ t, step readP2 = .next t) :=
  ⟨⟨startP2_inv, _, rfl⟩, ⟨⟨by decide, rfl, rfl, Nat.zero_le _⟩, _, rfl⟩,
    ⟨⟨by decide, rfl, rfl, Nat.le_refl _⟩, _, rfl⟩, ⟨⟨by decide, rfl, rfl, by decide, by decide⟩, _, rfl⟩⟩

/-- An instruction that changes its destination byte, and one state for each other writer. -/
theorem witness_MemoryIsWrittenOnlyByItsWriters :
    (runP2.mem.wf = true ∧ (after 1 runP2).mem.read 0x050000 ≠ runP2.mem.read 0x050000) ∧
      (let s : State := { startP2 with mem := memOf [(0, [7])] };
        s.mem.wf = true ∧ (after 1 s).mem.read 0 ≠ s.mem.read 0) ∧
      (let s := waitingWith [] [.load [7]];
        s.mem.wf = true ∧ (after 1 s).mem.read 0 ≠ s.mem.read 0) ∧
      (let s := waitingWith memP2 [.reset];
        s.mem.wf = true ∧ (after 1 s).mem.read 8 ≠ s.mem.read 8) := by decide

theorem witness_KeyFlagsAreWrittenOnlyByTheHost :
    (after 1 (waitingWith [] [.setKey 15 true])).keys ≠ (waitingWith [] [.setKey 15 true]).keys := by decide

theorem witness_ReadOutIsWrittenOnlyAtFrameEnd :
    (after 1 readP2).ab ≠ readP2.ab ∧
      (let s : State := { waitingWith [] [.reset] with fb := [(0, 1)] };
        (after 1 s).fb ≠ s.fb) := by decide

theorem witness_PlacedWordRunsNext : State.reset.mem.wf = true := rfl

theorem witness_ColourCubeIsOneToOne : (215 : Byte).toNat < 216 ∧ 216 ≤ (216 : Byte).toNat := by decide

end Sys2Proof.Tests
end

section
/-! PROOFS. What each end of a turn of the loop does, and what each command can write and leaves unchanged. -/

namespace Sys2Proof.Machine

/-! ### The three ends of a turn of the loop -/

/-- With the budget used up, the loop ends (R133). -/
theorem step_budget {s : State} {f : Frame} (hp : s.phase = .executing f) (hn : ¬ f.n < Config.budget) :
    step s = .next (s.endExecution f .budget) := by
  rw [step_executing hp, if_neg hn]

/-- At an idle instruction within the budget, the loop ends (R101). -/
theorem step_idle {s : State} {f : Frame} (hp : s.phase = .executing f) (hn : f.n < Config.budget)
    (hidle : s.mem.idleAt f.ip = true) : step s = .next (s.endExecution f .idle) := by
  rw [step_executing hp, if_pos hn, if_pos hidle]

/-- Any other instruction within the budget is executed (R102). -/
theorem step_copyAndJump {s : State} {f : Frame} (hp : s.phase = .executing f) (hn : f.n < Config.budget)
    (hidle : ¬ s.mem.idleAt f.ip = true) :
    step s = .next (copyAndJump (s.mem.fieldA f.ip) (s.mem.fieldB f.ip) (s.mem.fieldC f.ip) f s) := by
  rw [step_executing hp, if_pos hn, if_neg hidle]

/-! ### The commands -/

/-- Only `advance_frame` leaves the place between frames (R130). -/
theorem beginCommand_phase {c : Command} (hc : c ≠ .advanceFrame) (s : State) :
    (beginCommand c s).phase = s.phase := by
  cases c with
  | advanceFrame => exact absurd rfl hc
  | load bytes => simp only [beginCommand, hostLoad]; split_ifs <;> rfl
  | setKey index pressed => simp only [beginCommand, hostSetKey]; split_ifs <;> rfl
  | reset => rfl
  | framebuffer => rfl
  | audioBlock => rfl

/-- Only `reset` writes `FB` and `AB` (R33, R34). -/
theorem beginCommand_readOut {c : Command} (hc : c ≠ .reset) (s : State) :
    (beginCommand c s).fb = s.fb ∧ (beginCommand c s).ab = s.ab := by
  cases c with
  | reset => exact absurd rfl hc
  | load bytes => simp only [beginCommand, hostLoad]; split_ifs <;> exact ⟨rfl, rfl⟩
  | setKey index pressed => simp only [beginCommand, hostSetKey]; split_ifs <;> exact ⟨rfl, rfl⟩
  | advanceFrame => exact ⟨rfl, rfl⟩
  | framebuffer => exact ⟨rfl, rfl⟩
  | audioBlock => exact ⟨rfl, rfl⟩

/-- A command that changes the key flags is a `set_key` with a valid index or a `reset` (R32). -/
theorem keys_writer_of_beginCommand {c : Command} {s : State} (h : (beginCommand c s).keys ≠ s.keys) :
    (∃ index pressed, c = .setKey index pressed ∧ 0 ≤ index ∧ index < 16) ∨ c = .reset := by
  cases c with
  | setKey index pressed =>
    by_cases hi : 0 ≤ index ∧ index < 16
    · exact .inl ⟨index, pressed, rfl, hi⟩
    · exact absurd (by simp [beginCommand, hostSetKey, hi]) h
  | reset => exact .inr rfl
  | load bytes => exact absurd (by simp only [beginCommand, hostLoad]; split_ifs <;> rfl) h
  | advanceFrame => exact absurd rfl h
  | framebuffer => exact absurd rfl h
  | audioBlock => exact absurd rfl h

/-- A `load` that changes the byte at `x` has at most 2^24 bytes and covers `x` (R161). -/
theorem covers_of_hostLoad {bytes : List Byte} {s : State} {x : Addr} (hw : s.mem.wf = true)
    (h : (hostLoad bytes s).mem.read x ≠ s.mem.read x) : bytes.length ≤ 2 ^ 24 ∧ x.toNat < bytes.length := by
  by_cases hl : Config.memBytes < bytes.length
  · exact absurd (by simp [hostLoad, hl]) h
  · have hle : 0 + bytes.length ≤ Config.memBytes := by omega
    refine ⟨Nat.not_lt.1 hl, ?_⟩
    by_contra hx
    have hkept : Cells.get (Cells.putBytes s.mem 0 bytes) x.toNat = Cells.get s.mem x.toNat := by
      rw [Cells.get_putBytes bytes hw hle, if_neg (by omega)]
    exact h (by simpa [hostLoad, hl, Memory.read] using hkept)

/-- A command that changes the byte at `x` begins a frame with `x` a KEYS byte, loads over `x`, or resets (R23). -/
theorem mem_writer_of_beginCommand {c : Command} {s : State} {x : Addr} (hw : s.mem.wf = true)
    (h : (beginCommand c s).mem.read x ≠ s.mem.read x) :
    (c = .advanceFrame ∧ (x = 0 ∨ x = 1)) ∨
      (∃ bytes, c = .load bytes ∧ bytes.length ≤ 2 ^ 24 ∧ x.toNat < bytes.length) ∨ c = .reset := by
  cases c with
  | advanceFrame =>
    refine .inl ⟨rfl, ?_⟩
    by_contra hx
    obtain ⟨hx0, hx1⟩ := not_or.1 hx
    exact h ((Memory.read_packKeys hw s.keys x).trans (by rw [if_neg hx0, if_neg hx1]))
  | load bytes => exact .inr (.inl ⟨bytes, rfl, covers_of_hostLoad hw h⟩)
  | reset => exact .inr (.inr rfl)
  | setKey index pressed => exact absurd (by simp only [beginCommand, hostSetKey]; split_ifs <;> rfl) h
  | framebuffer => exact absurd rfl h
  | audioBlock => exact absurd rfl h

end Sys2Proof.Machine
end

section
/-! PROOFS. The invariant, kept by each kind of step, and by every step. -/

namespace Sys2Proof.Machine

/-- A command keeps the invariant: what it stores is canonical, and a frame it begins has N = 0. -/
theorem Inv.beginCommand {s : State} (h : Inv s) (hp : s.phase = .waiting) (c : Command) :
    Inv (beginCommand c s) := by
  have hmem : (Machine.beginCommand c s).mem.wf = true := wf_beginCommand h.mem
  have hphase : PhaseOk (Machine.beginCommand c s).mem (Machine.beginCommand c s).phase := by
    by_cases hc : c = .advanceFrame
    · subst hc
      exact Nat.zero_le _
    · rw [beginCommand_phase hc, hp]
      trivial
  by_cases hc : c = .reset
  · subst hc
    exact ⟨hmem, rfl, rfl, hphase⟩
  · obtain ⟨hfb, hab⟩ := beginCommand_readOut hc s
    exact ⟨hmem, hfb ▸ h.fb, hab ▸ h.ab, hphase⟩

/-- The end of the loop keeps the invariant where its reason is one the phase can have. -/
theorem Inv.endExecution {s : State} (h : Inv s) {f : Frame} {why : EndReason}
    (hok : PhaseOk s.mem (.readOut f why)) : Inv (s.endExecution f why) :=
  ⟨h.mem, h.fb, h.ab, hok⟩

/-- An instruction executed within the budget keeps the invariant: every address is inside the memory (R62). -/
theorem Inv.copyAndJump {s : State} (h : Inv s) {f : Frame} (hn : f.n < Config.budget) (a b c : Addr) :
    Inv (copyAndJump a b c f s) :=
  ⟨Memory.wf_write h.mem b _, h.fb, h.ab, hn⟩

/-- The read-out keeps the invariant: it copies two windows of a canonical memory. -/
theorem Inv.finishFrame {s : State} (h : Inv s) : Inv (finishFrame s) :=
  ⟨h.mem, Memory.wf_framePage h.mem, Memory.wf_audioBlock h.mem, trivial⟩

/-- In an instruction loop of a state that meets the invariant, N is at most 65536 (R36). -/
theorem Inv.n_le {s : State} (h : Inv s) {f : Frame} (hp : s.phase = .executing f) : f.n ≤ Config.budget := by
  have := h.phase
  rwa [hp] at this

/-- Settles O44, by the cases of one step: each kind of step keeps the invariant. -/
theorem everyStepKeepsTheInvariant : Obligations.EveryStepKeepsTheInvariant := by
  intro s t h hst
  obtain ⟨-, -, rfl⟩ | ⟨c, rest, hp, -, rfl⟩ | ⟨f, hp, hn, rfl⟩ | ⟨f, -, hn, hidle, rfl⟩ | ⟨f, -, hn, -, rfl⟩ |
    ⟨f, why, -, rfl⟩ := step_cases hst
  · exact h
  · exact Inv.beginCommand (s := s.setInbox rest) ⟨h.mem, h.fb, h.ab, h.phase⟩ hp c
  · exact h.endExecution (Nat.le_antisymm (h.n_le hp) (Nat.not_lt.1 hn))
  · exact h.endExecution ⟨hn, hidle⟩
  · exact h.copyAndJump hn _ _ _
  · exact h.finishFrame

end Sys2Proof.Machine
end

section
/-! PROOFS. Who writes the memory, the key flags and the read-out, what no instruction sees, and where BBJ is refused. -/

namespace Sys2Proof.Machine

/-! ### What an instruction cannot see -/

/-- A step of the instruction loop commutes with replacing `K`, `FB` and `AB`: each of its three ends does. -/
theorem step_setKeys_setReadOut {s t : State} {f : Frame} (hp : s.phase = .executing f) (hst : step s = .next t)
    (k : Vector Bool 16) (fb ab : Cells) :
    step ((s.setKeys k).setReadOut fb ab) = .next ((t.setKeys k).setReadOut fb ab) := by
  by_cases hn : f.n < Config.budget
  · by_cases hidle : s.mem.idleAt f.ip = true
    · obtain rfl := Host.Outcome.next.inj ((step_idle hp hn hidle).symm.trans hst)
      exact step_idle (s := (s.setKeys k).setReadOut fb ab) hp hn hidle
    · obtain rfl := Host.Outcome.next.inj ((step_copyAndJump hp hn hidle).symm.trans hst)
      exact step_copyAndJump (s := (s.setKeys k).setReadOut fb ab) hp hn hidle
  · obtain rfl := Host.Outcome.next.inj ((step_budget hp hn).symm.trans hst)
    exact step_budget (s := (s.setKeys k).setReadOut fb ab) hp hn

/-- A step of the instruction loop keeps `K`, `FB` and `AB`. -/
theorem step_executing_keeps {s t : State} {f : Frame} (hp : s.phase = .executing f) (hst : step s = .next t) :
    t.keys = s.keys ∧ t.fb = s.fb ∧ t.ab = s.ab := by
  rw [step_executing hp] at hst
  rw [← Host.Outcome.next.inj hst]
  split_ifs <;> exact ⟨rfl, rfl, rfl⟩

/-- Settles O21: a step of the loop commutes with replacing `K`, `FB` and `AB`, and keeps them. -/
theorem instructionsCannotSeeKeysOrReadOut : Obligations.InstructionsCannotSeeKeysOrReadOut :=
  fun _ _ _ k fb ab hp hst => ⟨step_setKeys_setReadOut hp hst k fb ab, step_executing_keeps hp hst⟩

/-! ### The writers -/

/-- A copy and jump that changes the byte at `x` has `x` as its destination. -/
theorem dest_of_copyAndJump {a b c : Addr} {f : Frame} {s : State} {x : Addr} (hw : s.mem.wf = true)
    (h : (copyAndJump a b c f s).mem.read x ≠ s.mem.read x) : x = b := by
  by_contra hx
  exact h (by rw [copyAndJump_mem, Memory.read_write hw, if_neg hx])

/-- Settles O45, by the cases of one step: the commands and the copy write memory, the other steps keep it. -/
theorem memoryIsWrittenOnlyByItsWriters : Obligations.MemoryIsWrittenOnlyByItsWriters := by
  intro s t x hw hst hx
  obtain ⟨-, -, rfl⟩ | ⟨c, rest, hp, hi, rfl⟩ | ⟨f, -, -, rfl⟩ | ⟨f, -, -, -, rfl⟩ | ⟨f, hp, hn, hidle, rfl⟩ |
    ⟨f, why, -, rfl⟩ := step_cases hst
  · exact absurd rfl hx
  · obtain ⟨rfl, hkeys⟩ | ⟨bytes, rfl, hcovers⟩ | rfl := mem_writer_of_beginCommand (s := s.setInbox rest) hw hx
    · exact .inr (.inl ⟨hp, ⟨rest, hi⟩, hkeys⟩)
    · exact .inr (.inr (.inl ⟨hp, bytes, rest, hi, hcovers⟩))
    · exact .inr (.inr (.inr ⟨hp, rest, hi⟩))
  · exact absurd rfl hx
  · exact absurd rfl hx
  · exact .inl ⟨f, hp, hn, hidle, dest_of_copyAndJump hw hx⟩
  · exact absurd rfl hx

/-- Settles O46, by the cases of one step: of all steps only a command can change the key flags. -/
theorem keyFlagsAreWrittenOnlyByTheHost : Obligations.KeyFlagsAreWrittenOnlyByTheHost := by
  intro s t hst hk
  obtain ⟨-, -, rfl⟩ | ⟨c, rest, hp, hi, rfl⟩ | ⟨f, -, -, rfl⟩ | ⟨f, -, -, -, rfl⟩ | ⟨f, -, -, -, rfl⟩ |
    ⟨f, why, -, rfl⟩ := step_cases hst
  · exact absurd rfl hk
  · obtain ⟨index, pressed, rfl, hvalid⟩ | rfl := keys_writer_of_beginCommand (s := s.setInbox rest) hk
    · exact ⟨hp, .inl ⟨index, pressed, rest, hi, hvalid⟩⟩
    · exact ⟨hp, .inr ⟨rest, hi⟩⟩
  all_goals exact absurd rfl hk

/-- Settles O47, by the cases of one step: of all steps only `reset` and the end of a frame can change `FB` or `AB`. -/
theorem readOutIsWrittenOnlyAtFrameEnd : Obligations.ReadOutIsWrittenOnlyAtFrameEnd := by
  intro s t hst hro
  have hchanged : ¬ (t.fb = s.fb ∧ t.ab = s.ab) := not_and_or.2 hro
  obtain ⟨-, -, rfl⟩ | ⟨c, rest, hp, hi, rfl⟩ | ⟨f, hp, -, -⟩ | ⟨f, hp, -, -, -⟩ | ⟨f, hp, -, -, -⟩ |
    ⟨f, why, hp, rfl⟩ := step_cases hst
  · exact absurd ⟨rfl, rfl⟩ hchanged
  · by_cases hc : c = .reset
    · exact .inr ⟨hp, rest, hc ▸ hi⟩
    · exact absurd (beginCommand_readOut hc (s.setInbox rest)) hchanged
  · exact absurd (step_executing_keeps hp hst).2 hchanged
  · exact absurd (step_executing_keeps hp hst).2 hchanged
  · exact absurd (step_executing_keeps hp hst).2 hchanged
  · exact .inl ⟨f, why, hp, rfl⟩

/-! ### The refusal -/

/-- With no execution phase running, BBJ is refused. -/
theorem execBbj_refused {s : State} (h : ∀ f, s.phase ≠ .executing f) (a b c : Addr) :
    execBbj a b c s = .refused .noInstructionLoop := by
  unfold execBbj
  cases hp : s.phase with
  | executing f => exact absurd hp (h f)
  | waiting => rfl
  | readOut f why => rfl

/-- Settles O18: inside the loop BBJ goes on, and everywhere else it is refused. -/
theorem bbjRefusedOnlyOutsideTheLoop : Obligations.BbjRefusedOnlyOutsideTheLoop := by
  intro a b c s
  constructor
  · intro h f hp
    have hgo : exec (.bbj a b c) s = _ := execBbj_executing hp
    rw [hgo] at h
    cases h
  · exact fun h => execBbj_refused h a b c

end Sys2Proof.Machine
end

section
/-! PROOFS. The two page address decoders are concatenations, and a written byte in the 24-bit values that cover it. -/

namespace Sys2Proof.Machine

/-! ### The address decoders -/

/-- The page, row and column lie side by side in the framebuffer address (R60). -/
theorem fbAddr_eq_append (p x y : Byte) : fbAddr p x y = (p ++ y ++ x : BitVec 24) := by
  have h := BitVec.setWidth_append_append_eq_shiftLeft_setWidth_or (w''' := 24) (b := p) (b' := y) (b'' := x)
  rw [BitVec.setWidth_eq] at h
  exact h.symm

/-- The block number and the index lie side by side in the audio address (R61). -/
theorem audAddr_eq_append (s : BitVec 16) (i : Byte) : audAddr s i = (s ++ i : BitVec 24) := by
  have h := BitVec.setWidth_append_eq_shiftLeft_setWidth_or (w'' := 24) (b := s) (b' := i)
  rw [BitVec.setWidth_eq] at h
  exact h.symm

/-- The framebuffer address as a number: its fields add up without carry (R60). -/
theorem toNat_fbAddr (p x y : Byte) : (fbAddr p x y).toNat = p.toNat * 65536 + y.toNat * 256 + x.toNat := by
  rw [fbAddr_eq_append, toNat_append_eq, toNat_append_eq]
  omega

/-- The audio address as a number (R61). -/
theorem toNat_audAddr (s : BitVec 16) (i : Byte) : (audAddr s i).toNat = s.toNat * 256 + i.toNat := by
  rw [audAddr_eq_append, toNat_append_eq]
  omega

/-- The fields of the framebuffer address (R60). -/
theorem extractLsb'_fbAddr (p x y : Byte) :
    (fbAddr p x y).extractLsb' 16 8 = p ∧ (fbAddr p x y).extractLsb' 8 8 = y ∧
      (fbAddr p x y).extractLsb' 0 8 = x := by
  rw [fbAddr_eq_append]
  refine ⟨?_, ?_, BitVec.extractLsb'_append_eq_right⟩
  · rw [BitVec.extractLsb'_append_eq_of_le (by decide)]
    exact BitVec.extractLsb'_append_eq_left
  · rw [BitVec.extractLsb'_append_eq_of_le (by decide)]
    exact BitVec.extractLsb'_append_eq_right

/-- The fields of the audio address (R61). -/
theorem extractLsb'_audAddr (s : BitVec 16) (i : Byte) :
    (audAddr s i).extractLsb' 8 16 = s ∧ (audAddr s i).extractLsb' 0 8 = i := by
  rw [audAddr_eq_append]
  exact ⟨BitVec.extractLsb'_append_eq_left, BitVec.extractLsb'_append_eq_right⟩

/-- Settles O8: the shift and OR is a concatenation, and from that come its fields and its number. -/
theorem framebufferAddressIsConcatenation : Obligations.FramebufferAddressIsConcatenation := by
  refine ⟨fun p x y => ?_, by decide, by decide⟩
  obtain ⟨hpage, hrow, hcolumn⟩ := extractLsb'_fbAddr p x y
  exact ⟨rfl, fbAddr_eq_append p x y, hpage, hrow, hcolumn, toNat_fbAddr p x y, (fbAddr p x y).isLt⟩

/-- Settles O9: the shift and OR is a concatenation, and from that come its fields and its number. -/
theorem audioAddressIsConcatenation : Obligations.AudioAddressIsConcatenation := by
  refine ⟨fun s i => ?_, by decide, fun i => ?_⟩
  · obtain ⟨hblock, hindex⟩ := extractLsb'_audAddr s i
    exact ⟨rfl, audAddr_eq_append s i, hblock, hindex, toNat_audAddr s i, (audAddr s i).isLt⟩
  · simp [toNat_audAddr]

/-! ### Values that cover a written byte -/

/-- A 24-bit value read after a write: each of its three bytes is the one written or the one that was there (R52, R54). -/
theorem Memory.addr24_write {m : Memory} (h : m.wf = true) (a : Addr) (v : Byte) (x : Addr) :
    (m.write a v).addr24 x =
      (if x = a then v else m.read x) ++ (if x + 1 = a then v else m.read (x + 1)) ++
        (if x + 2 = a then v else m.read (x + 2)) := by
  simp only [Memory.addr24, Memory.read_write h]

/-- Settles O10, by a read after a write at each of the three addresses. -/
theorem writtenByteShowsInCoveringValues : Obligations.WrittenByteShowsInCoveringValues :=
  fun _ a v x hw => Memory.addr24_write hw a v x

end Sys2Proof.Machine
end

section
/-! PROOFS. Encoding and decoding are inverse to one another, the opcode table's bit numbering, and the bytes of the fetched word. -/

namespace Sys2Proof.Machine

/-! ### Three fields side by side -/

/-- The fields of three values of one width side by side. -/
theorem extractLsb'_append_three {n : Nat} (x y z : BitVec n) :
    (x ++ y ++ z).extractLsb' (n + n) n = x ∧ (x ++ y ++ z).extractLsb' n n = y ∧
      (x ++ y ++ z).extractLsb' 0 n = z := by
  refine ⟨?_, ?_, BitVec.extractLsb'_append_eq_right⟩
  · rw [BitVec.extractLsb'_append_eq_of_le (by omega), Nat.add_sub_cancel]
    exact BitVec.extractLsb'_append_eq_left
  · rw [BitVec.extractLsb'_append_eq_of_le (by omega), Nat.sub_self]
    exact BitVec.extractLsb'_append_eq_right

/-- Three fields of one width, side by side again, are the value. -/
theorem append_three_extractLsb' {n : Nat} (w : BitVec (n + n + n)) :
    w.extractLsb' (n + n) n ++ w.extractLsb' n n ++ w.extractLsb' 0 n = w := by
  rw [BitVec.extractLsb'_append_extractLsb'_eq_extractLsb' rfl,
    BitVec.extractLsb'_append_extractLsb'_eq_extractLsb' (Nat.zero_add n).symm]
  exact BitVec.extractLsb'_eq_self

/-- The bytes of a 24-bit value joined from three bytes are those bytes (R52). -/
theorem addrBytes_append (x y z : Byte) : addrBytes (x ++ y ++ z) = [x, y, z] := by
  obtain ⟨hx, hy, hz⟩ := extractLsb'_append_three x y z
  simp only [addrBytes, List.cons.injEq, and_true]
  exact ⟨hx, hy, hz⟩

/-! ### Words -/

/-- Decoding a word gives back the instruction it encodes (R81). -/
@[simp] theorem decodeWord_encodeWord (i : Instr) : decodeWord (encodeWord i) = i := by
  cases i with
  | bbj a b c =>
    obtain ⟨ha, hb, hc⟩ := extractLsb'_append_three a b c
    simp only [decodeWord, encodeWord, Instr.bbj.injEq]
    exact ⟨ha, hb, hc⟩

/-- Encoding the instruction of a word gives back the word (R81). -/
@[simp] theorem encodeWord_decodeWord (w : InstrWord) : encodeWord (decodeWord w) = w :=
  append_three_extractLsb' (n := 24) w

/-- A word decodes to exactly the instruction it encodes. -/
theorem decodeWord_eq_iff {w : InstrWord} {i : Instr} : decodeWord w = i ↔ w = encodeWord i := by
  constructor
  · rintro rfl
    exact (encodeWord_decodeWord w).symm
  · rintro rfl
    exact decodeWord_encodeWord i

/-! ### Bytes -/

/-- Nine bytes decode to BBJ, each field joined from three of them (R83). -/
theorem decode_nine_cons (b0 b1 b2 b3 b4 b5 b6 b7 b8 : Byte) (rest : List Byte) :
    decode (b0 :: b1 :: b2 :: b3 :: b4 :: b5 :: b6 :: b7 :: b8 :: rest) =
      .ok (.bbj (b0 ++ b1 ++ b2) (b3 ++ b4 ++ b5) (b6 ++ b7 ++ b8), rest) := by
  rw [decode, decodeWord_joinBytes]

/-- Fewer than nine bytes are refused (R85). -/
theorem decode_of_length_lt {bytes : List Byte} (h : bytes.length < 9) : decode bytes = .error .tooFewBytes := by
  unfold decode
  split
  · simp only [List.length_cons] at h
    omega
  · rfl

/-- A list of nine bytes or more begins with nine bytes. -/
theorem exists_eq_nine_cons {bytes : List Byte} (h : 9 ≤ bytes.length) :
    ∃ b0 b1 b2 b3 b4 b5 b6 b7 b8 rest, bytes = b0 :: b1 :: b2 :: b3 :: b4 :: b5 :: b6 :: b7 :: b8 :: rest := by
  match bytes, h with
  | b0 :: b1 :: b2 :: b3 :: b4 :: b5 :: b6 :: b7 :: b8 :: rest, _ =>
    exact ⟨b0, b1, b2, b3, b4, b5, b6, b7, b8, rest, rfl⟩

/-- Bytes that decode are at least nine. -/
theorem length_of_decode_ok {bytes rest : List Byte} {i : Instr} (h : decode bytes = .ok (i, rest)) :
    9 ≤ bytes.length := by
  by_contra hlt
  rw [decode_of_length_lt (Nat.lt_of_not_le hlt)] at h
  cases h

/-- An encoded instruction decodes to itself, whatever bytes follow (R86). -/
theorem decode_encode (i : Instr) (rest : List Byte) : decode (encode i ++ rest) = .ok (i, rest) := by
  cases i with
  | bbj a b c =>
    simp only [encode, addrBytes, List.cons_append, List.nil_append, decode_nine_cons]
    have hjoin (x : Addr) : x.extractLsb' 16 8 ++ x.extractLsb' 8 8 ++ x.extractLsb' 0 8 = x :=
      append_three_extractLsb' (n := 8) x
    rw [hjoin, hjoin, hjoin]

/-- Bytes decode to exactly the instruction whose encoding they begin with. -/
theorem decode_eq_ok_iff {bytes rest : List Byte} {i : Instr} :
    decode bytes = .ok (i, rest) ↔ encode i ++ rest = bytes := by
  constructor
  · intro h
    obtain ⟨b0, b1, b2, b3, b4, b5, b6, b7, b8, tail, rfl⟩ := exists_eq_nine_cons (length_of_decode_ok h)
    rw [decode_nine_cons] at h
    cases h
    simp only [encode, addrBytes_append, List.cons_append, List.nil_append]
  · rintro rfl
    exact decode_encode i rest

/-- The bytes of a word decode to the instruction of that word (R81). -/
theorem decode_wordBytes (w : InstrWord) : decode (wordBytes w) = .ok (decodeWord w, []) := by
  simp only [wordBytes, decode, joinBytes_extract]

/-- The bytes of a word are the encoding of its instruction. -/
theorem wordBytes_eq_encode (w : InstrWord) : wordBytes w = encode (decodeWord w) := by
  rw [← decode_eq_ok_iff.mp (decode_wordBytes w), List.append_nil]

/-- Settles O2: decoding is inverse to encoding on bytes and on words, and the bytes of a word join the two. -/
theorem decodeAndEncodeAgree : Obligations.DecodeAndEncodeAgree := by
  refine ⟨fun i rest _ => decode_encode i rest, fun _ _ _ => decode_eq_ok_iff.mp, decodeWord_encodeWord,
    encodeWord_decodeWord, fun i => ?_⟩
  rw [wordBytes_eq_encode, decodeWord_encodeWord]

/-- Settles O1: a word is read by its fields, and nine bytes by the word they join. -/
theorem everyNineBytesDecodeToBbj : Obligations.EveryNineBytesDecodeToBbj :=
  ⟨fun _ => ⟨rfl, rfl⟩, decode_nine_cons⟩

/-- Settles O3, by the length of the list. -/
theorem decoderConsumesNineBytes : Obligations.DecoderConsumesNineBytes := by
  refine ⟨fun _ => decode_of_length_lt, fun _ hlen => ?_⟩
  obtain ⟨b0, b1, b2, b3, b4, b5, b6, b7, b8, rest, rfl⟩ := exists_eq_nine_cons hlen
  exact ⟨_, decode_nine_cons b0 b1 b2 b3 b4 b5 b6 b7 b8 rest⟩

/-! ### The opcode table's numbering -/

/-- A field of a numeral: the bits from `start` up are the numeral divided by `2 ^ start`. -/
theorem extractLsb'_ofNat_of_lt {n w : Nat} (h : w < 2 ^ n) (start len : Nat) :
    (BitVec.ofNat n w).extractLsb' start len = BitVec.ofNat len (w / 2 ^ start) := by
  rw [BitVec.extractLsb', BitVec.toNat_ofNat, Nat.mod_eq_of_lt h, Nat.shiftRight_eq_div_pow]

/-- Settles O5: the decoder reads the word the numeral names, and its fields are quotients of the numeral. -/
theorem tableNumberingReadsTheFields : Obligations.TableNumberingReadsTheFields := by
  intro w hw
  simp only [decodeTableWord, decode_wordBytes, tableWord, Nat.mod_eq_of_lt hw, decodeWord,
    extractLsb'_ofNat_of_lt hw, Nat.pow_zero, Nat.div_one]

/-! ### The idle condition -/

/-- The idle condition: source and destination are one, and the jump goes to the instruction's own address (R84). -/
theorem isIdle_iff (a b c ip : Addr) : isIdle a b c ip = true ↔ a = b ∧ c = ip := by
  simp only [isIdle, Bool.and_eq_true, beq_iff_eq]

/-- An instruction that jumps to another address is not idle. -/
theorem isIdle_of_jump_ne {c ip : Addr} (h : c ≠ ip) (a b : Addr) : isIdle a b c ip = false :=
  Bool.eq_false_iff.mpr fun hidle => h ((isIdle_iff a b c ip).mp hidle).2

/-- The fields of a word are idle at `ip` exactly when the word decodes to `BBJ a, a, ip`. -/
theorem isIdle_fields_iff (w : InstrWord) (ip : Addr) :
    isIdle (w.extractLsb' 48 24) (w.extractLsb' 24 24) (w.extractLsb' 0 24) ip = true ↔
      ∃ a, decodeWord w = .bbj a a ip := by
  simp only [isIdle_iff, decodeWord, Instr.bbj.injEq]
  constructor
  · rintro ⟨hab, hc⟩
    exact ⟨_, rfl, hab.symm, hc⟩
  · rintro ⟨a, ha, hb, hc⟩
    exact ⟨ha.trans hb.symm, hc⟩

/-- Settles O6: the words that decode to `BBJ a, a, ip` are the encodings of it, and a jump elsewhere is not idle. -/
theorem idleConditionOfAWord : Obligations.IdleConditionOfAWord :=
  ⟨isIdle_iff, fun w ip => (isIdle_fields_iff w ip).trans (exists_congr fun _ => decodeWord_eq_iff),
    fun a _ _ hne => isIdle_of_jump_ne hne a a⟩

/-- Settles O7: `IDLE` jumps to its own address, `MOVB` nine bytes on, and `JMP` to another address or not at all. -/
theorem pseudoInstructionsIdleOnlyAsIdle : Obligations.PseudoInstructionsIdleOnlyAsIdle := by
  refine ⟨fun here => ⟨0, 0, here, rfl, ?_⟩, fun here a b => ⟨here + 9, rfl, ?_⟩, fun here => if_pos rfl,
    fun here c hne => ⟨8, if_neg hne, isIdle_of_jump_ne hne 8 8⟩⟩
  · exact (isIdle_iff 0 0 here here).mpr ⟨rfl, rfl⟩
  · exact isIdle_of_jump_ne (by simp) a b

/-! ### The bytes of the fetched word -/

/-- The bytes of the word at IP are the nine bytes fetched: both encode its instruction (R81). -/
theorem Memory.wordBytes_fetchWord (m : Memory) (ip : Addr) : wordBytes (m.fetchWord ip) = m.fetchBytes ip := by
  have hdecode : decode (m.fetchBytes ip) = .ok (decodeWord (m.fetchWord ip), []) := rfl
  rw [wordBytes_eq_encode, ← decode_eq_ok_iff.mp hdecode, List.append_nil]

/-- Byte `k` of a word, from the most significant (R81). -/
theorem wordBytes_getElem? (w : InstrWord) {k : Nat} (hk : k < 9) :
    (wordBytes w)[k]? = some (w.extractLsb' (64 - 8 * k) 8) := by
  interval_cases k <;> rfl

/-- Byte `k` of a fetch is the byte at `IP + k` (R55). -/
theorem Memory.fetchBytes_getElem? (m : Memory) (ip : Addr) {k : Nat} (hk : k < 9) :
    (m.fetchBytes ip)[k]? = some (m.read (ip + BitVec.ofNat 24 k)) := by
  interval_cases k
  · simp [Memory.fetchBytes]
  all_goals rfl

/-- Byte `k` of the word at IP is the byte at `IP + k` (R81, R55). -/
theorem Memory.extractLsb'_fetchWord (m : Memory) (ip : Addr) {k : Nat} (hk : k < 9) :
    (m.fetchWord ip).extractLsb' (64 - 8 * k) 8 = m.read (ip + BitVec.ofNat 24 k) := by
  apply Option.some.inj
  rw [← wordBytes_getElem? _ hk, m.wordBytes_fetchWord, m.fetchBytes_getElem? ip hk]

/-- Settles O11: each byte is read at `IP + k` in 24 bits, and the fields are those of the instruction at IP. -/
theorem fetchedWordIsNineBytesWrapping : Obligations.FetchedWordIsNineBytesWrapping := by
  refine fun m ip => ⟨fun k hk => ?_, decodeWord_fetchWord m ip⟩
  rw [m.extractLsb'_fetchWord ip hk, Memory.read, BitVec.toNat_add, BitVec.toNat_ofNat, Nat.add_mod_mod]

end Sys2Proof.Machine
end

section
/-! PROOFS. The copy-and-jump instruction: what exec does with BBJ, the step as exec of the fetched instruction, the order inside one
instruction, the self-loop, the placed word, and idle equivalence. -/

namespace Sys2Proof.Machine

/-! ### The two ways BBJ completes -/

/-- An idle BBJ ends the execution phase (R101). -/
theorem exec_bbj_idle {a b c : Addr} {s : State} {f : Frame} (hp : s.phase = .executing f)
    (hidle : isIdle a b c f.ip = true) : exec (.bbj a b c) s = .next (s.endExecution f .idle) := by
  rw [exec, execBbj_executing hp, if_pos hidle]

/-- Any other BBJ copies and jumps (R102). -/
theorem exec_bbj_copy {a b c : Addr} {s : State} {f : Frame} (hp : s.phase = .executing f)
    (hidle : isIdle a b c f.ip = false) : exec (.bbj a b c) s = .next (copyAndJump a b c f s) := by
  rw [exec, execBbj_executing hp, if_neg (Bool.eq_false_iff.mp hidle)]

/-- In an instruction loop every instruction goes on. -/
theorem exec_goesOn {s : State} {f : Frame} (hp : s.phase = .executing f) (i : Instr) : GoesOn (exec i s) := by
  cases i with
  | bbj a b c => exact ⟨_, execBbj_executing hp⟩

/-- Settles O16: `BBJ a, a, IP` is idle. -/
theorem idleBbjEndsTheInstructionLoop : Obligations.IdleBbjEndsTheInstructionLoop :=
  fun a c _ f hp hc => exec_bbj_idle hp ((isIdle_iff a a c f.ip).mpr ⟨rfl, hc⟩)

/-- Settles O15: the copy writes byte B alone, and a byte copied to itself was already there. -/
theorem bbjCopiesOneByteAndJumps : Obligations.BbjCopiesOneByteAndJumps := by
  refine fun a b c s f hp hidle => ⟨exec_bbj_copy hp hidle, fun hw => ⟨Memory.read_write hw b _, ?_⟩⟩
  rintro rfl
  exact Memory.write_read hw a

/-- Settles O17, by the two ways BBJ completes: the idle end keeps memory, the copy writes byte B alone. -/
theorem bbjChangesOnlyItsDestinationByte : Obligations.BbjChangesOnlyItsDestinationByte := by
  intro a b c s t f hw hp hexec
  cases hidle : isIdle a b c f.ip
  · obtain rfl := Host.Outcome.next.inj ((exec_bbj_copy hp hidle).symm.trans hexec)
    refine ⟨rfl, rfl, rfl, rfl, rfl, nofun, fun _ x (hx : x ≠ b) => ?_⟩
    rw [copyAndJump_mem, Memory.read_write hw, if_neg hx]
  · obtain rfl := Host.Outcome.next.inj ((exec_bbj_idle hp hidle).symm.trans hexec)
    exact ⟨rfl, rfl, rfl, rfl, rfl, fun _ _ => rfl, nofun⟩

/-! ### The step as exec of the fetched instruction -/

/-- Within the budget a step is exec of the instruction of the word at IP (R100, R133). -/
theorem step_eq_exec {s : State} {f : Frame} (hp : s.phase = .executing f) (hn : f.n < Config.budget) :
    step s = exec (decodeWord (s.mem.fetchWord f.ip)) s := by
  have hturn : step s = stepExecuting f s := by rw [step, hp]
  rw [hturn, stepExecuting, if_pos hn, fetch_config]

/-- The nine bytes at IP decode to the instruction its three fields name, with no byte left over. -/
theorem Memory.decode_fetchBytes (m : Memory) (ip : Addr) :
    decode (m.fetchBytes ip) = .ok (.bbj (m.fieldA ip) (m.fieldB ip) (m.fieldC ip), []) := by
  rw [← m.wordBytes_fetchWord, decode_wordBytes, decodeWord_fetchWord]

/-- Within the budget a step is exec of BBJ with the three fields at IP (R100). -/
theorem step_eq_exec_fields {s : State} {f : Frame} (hp : s.phase = .executing f) (hn : f.n < Config.budget) :
    step s = exec (.bbj (s.mem.fieldA f.ip) (s.mem.fieldB f.ip) (s.mem.fieldC f.ip)) s := by
  rw [step_eq_exec hp hn, decodeWord_fetchWord]

/-- Settles O13: the nine bytes decode to the instruction of the three fields, which the step executes. -/
theorem stepRunsTheDecodedInstruction : Obligations.StepRunsTheDecodedInstruction := by
  intro s f i rest hp hn hdecode _
  rw [Memory.decode_fetchBytes] at hdecode
  cases hdecode
  exact ⟨step_eq_exec_fields hp hn, rfl⟩

/-- Settles O14: the step executes BBJ with the three fields at IP, and addresses add in 24 bits. -/
theorem stepFetchesTheThreeFields : Obligations.StepFetchesTheThreeFields :=
  fun _ f hp hn => ⟨step_eq_exec_fields hp hn, BitVec.toNat_add f.ip 3, BitVec.toNat_add f.ip 6⟩

/-- Settles O19: the copy writes what byte A held, and each byte of a later fetch is a read after that write. -/
theorem fetchReadWriteJumpInOrder : Obligations.FetchReadWriteJumpInOrder := by
  intro s f hw hp hn hidle
  refine ⟨_, step_copyAndJump hp hn (Bool.eq_false_iff.mp hidle), rfl, ?_, fun x k hk => ?_⟩
  · exact (Memory.read_write hw _ _ _).trans (if_pos rfl)
  · rw [Memory.extractLsb'_fetchWord _ x hk]
    exact Memory.read_write hw _ _ _

/-! ### The placed word -/

/-- A state whose next step executes the instruction of the word `w`. -/
def RunsNext (w : InstrWord) (s : State) : Prop :=
  ∃ f : Frame, s.phase = .executing f ∧ f.n < Config.budget ∧ s.mem.fetchWord f.ip = w

/-- A state that runs `w` next steps as the instruction of `w` does, which goes on. -/
theorem RunsNext.step_eq_exec {w : InstrWord} {s : State} (h : RunsNext w s) :
    step s = exec (decodeWord w) s ∧ GoesOn (exec (decodeWord w) s) := by
  obtain ⟨f, hp, hn, rfl⟩ := h
  exact ⟨Machine.step_eq_exec hp hn, exec_goesOn hp _⟩

/-- A word stored at the IP of a loop with budget left runs next. -/
theorem runsNext_placeAt {s : State} {f : Frame} (hw : s.mem.wf = true) (hp : s.phase = .executing f)
    (hn : f.n < Config.budget) (w : InstrWord) : RunsNext w (placeAt f.ip w s) :=
  ⟨f, hp, hn, Memory.fetchWord_writeBytes hw f.ip w⟩

/-- A word stored at the PC of a frame that starts runs next (R132). -/
theorem runsNext_placeAt_startFrame {s : State} (hw : s.mem.wf = true) (w : InstrWord) :
    RunsNext w (placeAt (s.mem.packKeys s.keys).pcReg w (startFrame s)) :=
  runsNext_placeAt (s := startFrame s) (Memory.wf_packKeys hw s.keys) rfl
    (show 0 < Config.budget by decide) w

/-- A placed word runs next, from every phase. -/
theorem runsNext_placeFetchWord {s : State} (hw : s.mem.wf = true) (w : InstrWord) :
    RunsNext w (placeFetchWord w s) := by
  unfold placeFetchWord
  split
  next f hp =>
    split
    next hn => exact runsNext_placeAt hw hp hn w
    next => exact runsNext_placeAt_startFrame hw w
  next => exact runsNext_placeAt_startFrame hw w
  next => exact runsNext_placeAt_startFrame hw w

/-- Settles O48: the table word, placed, runs next, and the decoder reads its instruction. -/
theorem placedWordRunsNext : Obligations.PlacedWordRunsNext := by
  refine fun s nbits w hw => ⟨decodeWord (tableWord nbits w), ?_, (runsNext_placeFetchWord hw _).step_eq_exec⟩
  rw [decodeTableWord, decode_wordBytes]

/-! ### The copy of the instruction at an address -/

/-- Memory after the copy of the instruction at `ip`: `M[B] <- M[A]` (R102). -/
def Memory.copyAt (m : Memory) (ip : Addr) : Memory :=
  m.write (m.fieldB ip) (m.read (m.fieldA ip))

/-- What a step that executes an instruction does to the state (R102), with the copy named. -/
theorem step_copyAt {s : State} {f : Frame} (hp : s.phase = .executing f) (hn : f.n < Config.budget)
    (hidle : ¬ s.mem.idleAt f.ip = true) :
    step s = .next ((s.setMem (s.mem.copyAt f.ip)).setPhase (.executing ⟨s.mem.fieldC f.ip, f.n + 1⟩)) :=
  step_copyAndJump hp hn hidle

theorem Memory.wf_copyAt {m : Memory} (hw : m.wf = true) (ip : Addr) : (m.copyAt ip).wf = true :=
  Memory.wf_write hw _ _

/-- The copy of an instruction with A = B changes nothing. -/
theorem Memory.copyAt_of_fieldA_eq_fieldB {m : Memory} (hw : m.wf = true) {ip : Addr}
    (hab : m.fieldA ip = m.fieldB ip) : m.copyAt ip = m := by
  rw [Memory.copyAt, ← hab, Memory.write_read hw]

/-! ### Self-loops -/

/-- A write outside the nine bytes of an instruction leaves them as they are. -/
theorem Memory.fetchBytes_write_of_outside {m : Memory} (hw : m.wf = true) {ip b : Addr}
    (hout : ∀ k < 9, b ≠ ip + BitVec.ofNat 24 k) (v : Byte) : (m.write b v).fetchBytes ip = m.fetchBytes ip := by
  refine List.ext_getElem rfl fun k hk _ => Option.some.inj ?_
  have hk : k < 9 := hk
  rw [← List.getElem?_eq_getElem, ← List.getElem?_eq_getElem, Memory.fetchBytes_getElem? _ ip hk,
    Memory.fetchBytes_getElem? _ ip hk, Memory.read_write hw, if_neg (hout k hk).symm]

/-- A self-loop at `ip` that spares its own nine bytes (R105). -/
structure Memory.SelfLoop (m : Memory) (ip : Addr) : Prop where
  ne : m.fieldA ip ≠ m.fieldB ip
  jump : m.fieldC ip = ip
  outside : ∀ k < 9, m.fieldB ip ≠ ip + BitVec.ofNat 24 k

/-- A self-loop is not idle, since A and B differ. -/
theorem Memory.SelfLoop.not_idle {m : Memory} {ip : Addr} (h : m.SelfLoop ip) : ¬ m.idleAt ip = true :=
  fun hidle => h.ne ((m.idleAt_iff ip).mp hidle).1

/-- The copy of a self-loop leaves its three fields as they are. -/
theorem Memory.SelfLoop.fields_copyAt {m : Memory} {ip : Addr} (h : m.SelfLoop ip) (hw : m.wf = true) :
    (m.copyAt ip).fieldA ip = m.fieldA ip ∧ (m.copyAt ip).fieldB ip = m.fieldB ip ∧
      (m.copyAt ip).fieldC ip = m.fieldC ip := by
  have hbytes : (m.copyAt ip).fetchBytes ip = m.fetchBytes ip := Memory.fetchBytes_write_of_outside hw h.outside _
  have hdecode := congrArg decode hbytes
  rw [Memory.decode_fetchBytes, Memory.decode_fetchBytes] at hdecode
  simpa using hdecode

/-- A self-loop is one still after its copy. -/
theorem Memory.SelfLoop.copyAt {m : Memory} {ip : Addr} (h : m.SelfLoop ip) (hw : m.wf = true) :
    (m.copyAt ip).SelfLoop ip := by
  obtain ⟨ha, hb, hc⟩ := h.fields_copyAt hw
  exact ⟨ha ▸ hb ▸ h.ne, hc.trans h.jump, hb ▸ h.outside⟩

/-- The second copy of a self-loop changes nothing: byte B already holds M[A], which the first copy has kept. -/
theorem Memory.SelfLoop.copyAt_copyAt {m : Memory} {ip : Addr} (h : m.SelfLoop ip) (hw : m.wf = true) :
    (m.copyAt ip).copyAt ip = m.copyAt ip := by
  obtain ⟨ha, hb, -⟩ := h.fields_copyAt hw
  have hsource : (m.copyAt ip).read (m.fieldA ip) = m.read (m.fieldA ip) :=
    (Memory.read_write hw _ _ _).trans (if_neg h.ne)
  have hdest : (m.copyAt ip).read (m.fieldB ip) = m.read (m.fieldA ip) :=
    (Memory.read_write hw _ _ _).trans (if_pos rfl)
  calc (m.copyAt ip).copyAt ip
      = (m.copyAt ip).write (m.fieldB ip) ((m.copyAt ip).read (m.fieldA ip)) := by
        rw [Memory.copyAt, ha, hb]
    _ = (m.copyAt ip).write (m.fieldB ip) ((m.copyAt ip).read (m.fieldB ip)) := by rw [hsource, hdest]
    _ = m.copyAt ip := Memory.write_read (Memory.wf_copyAt hw ip) _

/-- One step of a self-loop makes the copy and stays at IP. -/
theorem Memory.SelfLoop.step {s : State} {f : Frame} (h : s.mem.SelfLoop f.ip) (hp : s.phase = .executing f)
    (hn : f.n < Config.budget) :
    step s = .next ((s.setMem (s.mem.copyAt f.ip)).setPhase (.executing ⟨f.ip, f.n + 1⟩)) := by
  rw [step_copyAt hp hn h.not_idle, h.jump]

/-- After `j + 1` steps of a self-loop the copy is made, IP is the same and N has grown by `j + 1` (R105). -/
theorem Memory.SelfLoop.steps {s : State} {f : Frame} (h : s.mem.SelfLoop f.ip) (hw : s.mem.wf = true)
    (hp : s.phase = .executing f) (j : Nat) (hj : f.n + j + 1 ≤ Config.budget) :
    Steps (j + 1) s ((s.setMem (s.mem.copyAt f.ip)).setPhase (.executing ⟨f.ip, f.n + j + 1⟩)) := by
  induction j with
  | zero => exact Steps.one (h.step hp hj)
  | succ j ih =>
    refine (ih (by omega)).trans (Steps.one ?_)
    have hnext := (h.copyAt hw).step (f := ⟨f.ip, f.n + j + 1⟩)
      (s := (s.setMem (s.mem.copyAt f.ip)).setPhase (.executing ⟨f.ip, f.n + j + 1⟩)) rfl hj
    simp only [State.setPhase_mem, State.setMem_mem, h.copyAt_copyAt hw] at hnext
    exact hnext

/-- Settles O20, by induction on the number of steps. -/
theorem selfLoopRepeatsOneCopy : Obligations.SelfLoopRepeatsOneCopy :=
  fun _ _ hw hp hne hjump hout j hj => Memory.SelfLoop.steps ⟨hne, hjump, hout⟩ hw hp j hj

/-! ### Idle equivalence -/

/-- A turn of R130's loop: the idle end, or the copy and the jump. -/
theorem Block.loop_succ (left : Nat) (m : Memory) (f : Frame) :
    Block.loop (left + 1) m f =
      if m.idleAt f.ip then ⟨m, f, .idle⟩ else Block.loop left (m.copyAt f.ip) ⟨m.fieldC f.ip, f.n + 1⟩ := by
  simp only [Memory.idleAt_iff]
  rfl

/-- A turn of the loop without the early exit: the copy and the jump. -/
theorem Block.loopNoExit_succ (left : Nat) (m : Memory) (ip : Addr) :
    Block.loopNoExit (left + 1) m ip = Block.loopNoExit left (m.copyAt ip) (m.fieldC ip) := rfl

/-- From an idle instruction on, the loop without the early exit changes nothing: each turn copies a byte to itself and comes back. -/
theorem Block.loopNoExit_of_idle {m : Memory} (hw : m.wf = true) {ip : Addr} (hidle : m.idleAt ip = true)
    (left : Nat) : Block.loopNoExit left m ip = m := by
  obtain ⟨hab, hc⟩ := (m.idleAt_iff ip).mp hidle
  induction left with
  | zero => rfl
  | succ left ih => rw [Block.loopNoExit_succ, Memory.copyAt_of_fieldA_eq_fieldB hw hab, hc, ih]

/-- Settles O30, by induction on the turns left: both loops make the same copies until the first idle instruction. -/
theorem earlyExitLeavesTheSameMemory : Obligations.EarlyExitLeavesTheSameMemory := by
  intro left m f hw
  induction left generalizing m f with
  | zero => rfl
  | succ left ih =>
    rw [Block.loop_succ]
    split_ifs with hidle
    · exact (Block.loopNoExit_of_idle hw hidle (left + 1)).symm
    · rw [ih _ _ (Memory.wf_copyAt hw f.ip), Block.loopNoExit_succ]

end Sys2Proof.Machine
end

section
/-! PROOFS. The start of a frame (R131, R132): the packed key flags bit by bit, and the PC read after the packing. And what ends
the loop of the frame (R133, R135). -/

namespace Sys2Proof.Machine

/-! ### The packed key flags -/

/-- The packing of R130 stopped after the first `n` of the flags from `base` up. -/
def packedBits (keys : Vector Bool 16) (base n : Nat) : Byte :=
  (List.range n).foldl (fun acc j => acc + keyBit keys (base + j) <<< j) 0

/-- A KEYS byte is the packing of eight flags. -/
theorem keyByte_eq_packedBits (keys : Vector Bool 16) (base : Nat) : keyByte keys base = packedBits keys base 8 := rfl

theorem packedBits_succ (keys : Vector Bool 16) (base n : Nat) :
    packedBits keys base (n + 1) = packedBits keys base n + keyBit keys (base + n) <<< n := by
  rw [packedBits, List.range_succ, List.foldl_append]
  rfl

/-- A key flag as a byte has one bit, which is the flag. -/
theorem getLsbD_keyBit (keys : Vector Bool 16) (k i : Nat) :
    (keyBit keys k).getLsbD i = (decide (i = 0) && keys[k]?.getD false) := by
  cases h : keys[k]?.getD false <;> simp [keyBit, h]

/-- Bit `i` of a packing is flag `base + i`: each flag is added at a place that no flag before it has used. -/
theorem getLsbD_packedBits (keys : Vector Bool 16) (base n : Nat) (i : Nat) (hi : i < 8) :
    (packedBits keys base n).getLsbD i = (decide (i < n) && keys[base + i]?.getD false) := by
  induction n generalizing i with
  | zero => simp [packedBits]
  | succ n ih =>
    have hshift (j : Nat) (hj : j < 8) :
        (keyBit keys (base + n) <<< n).getLsbD j = (decide (j = n) && keys[base + j]?.getD false) := by
      rw [BitVec.getLsbD_shiftLeft, getLsbD_keyBit]
      rcases Nat.lt_trichotomy j n with h | rfl | h
      · simp [h, h.ne]
      · simp [hj]
      · simp [h.ne', Nat.sub_ne_zero_of_lt h]
    have hdisjoint : packedBits keys base n &&& keyBit keys (base + n) <<< n = 0#8 := by
      refine BitVec.eq_of_getLsbD_eq fun j hj => ?_
      rw [BitVec.getLsbD_and, ih j hj, hshift j hj]
      by_cases h : j = n <;> simp [h]
    rw [packedBits_succ, BitVec.add_eq_or_of_and_eq_zero _ _ hdisjoint, BitVec.getLsbD_or, ih i hi, hshift i hi,
      ← Bool.and_or_distrib_right, ← Bool.decide_or]
    simp only [Nat.lt_succ_iff_lt_or_eq]

/-- Bit `j` of a KEYS byte is key flag `base + j` (R27). -/
theorem getLsbD_keyByte (keys : Vector Bool 16) (base : Nat) {j : Nat} (hj : j < 8) :
    (keyByte keys base).getLsbD j = keys[base + j]?.getD false := by
  rw [keyByte_eq_packedBits, getLsbD_packedBits keys base 8 j hj, decide_eq_true hj, Bool.true_and]

/-! ### Step 1 and step 2 of a frame -/

/-- What the step does that begins a frame. -/
theorem step_advanceFrame {s : State} {rest : List Command} (hp : s.phase = .waiting)
    (hi : s.inbox = .advanceFrame :: rest) : step s = .next (startFrame (s.setInbox rest)) :=
  step_waiting_cons hp hi

/-- Step 2 of a frame: `IP` is the PC after the packing, and N is 0 (R132). -/
@[simp] theorem startFrame_phase (s : State) :
    (startFrame s).phase = .executing ⟨(s.mem.packKeys s.keys).pcReg, 0⟩ := rfl

/-- Inside a frame no step changes the key flags or begins a command. -/
theorem step_in_frame_keeps {s t : State} (hp : s.phase ≠ .waiting) (hst : step s = .next t) :
    t.keys = s.keys ∧ t.inbox = s.inbox := by
  obtain ⟨hw, -, -⟩ | ⟨c, rest, hw, -, -⟩ | ⟨f, -, -, rfl⟩ | ⟨f, -, -, -, rfl⟩ | ⟨f, -, -, -, rfl⟩ |
    ⟨f, why, -, rfl⟩ := step_cases hst
  · exact absurd hw hp
  · exact absurd hw hp
  all_goals exact ⟨rfl, rfl⟩

/-- Settles O22: the KEYS bytes bit by bit, the bytes the packing keeps, and the worked example on its one key vector. -/
theorem frameStartPacksTheKeys : Obligations.FrameStartPacksTheKeys := by
  refine ⟨fun s rest hw hp hi => ⟨_, step_advanceFrame hp hi, fun j hj => ?_, fun j hj => ?_, fun a h0 h1 => ?_,
    rfl, rfl, rfl, rfl, rfl⟩, fun s t => step_in_frame_keeps, fun k hk => ?_⟩
  · have hbyte := Memory.read_packKeys hw s.keys 0
    rw [if_pos rfl] at hbyte
    exact hbyte ▸ (getLsbD_keyByte s.keys 0 hj).trans (by rw [Nat.zero_add])
  · have hbyte := Memory.read_packKeys hw s.keys 1
    rw [if_neg (by decide), if_pos rfl] at hbyte
    exact hbyte ▸ getLsbD_keyByte s.keys 8 hj
  · exact (Memory.read_packKeys hw s.keys a).trans (by rw [if_neg h0, if_neg h1])
  · obtain rfl : k = Vector.ofFn fun j : Fin 16 => j == 0 || j == 3 || j == 9 :=
      Vector.ext fun j hj => (hk ⟨j, hj⟩).trans (by rw [Vector.getElem_ofFn])
    decide

/-- The packing never changes the PC value: it writes none of bytes 2, 3 and 4 (R132). -/
theorem Memory.pcReg_packKeys {m : Memory} (hw : m.wf = true) (keys : Vector Bool 16) :
    (m.packKeys keys).pcReg = m.pcReg := by
  simp [Memory.pcReg, Memory.addr24, Memory.read_packKeys hw]

/-- Settles O23: IP is the PC value after the packing, which is the one before it. -/
theorem frameStartsAtPc : Obligations.FrameStartsAtPc := by
  intro s rest hw hp hi
  have hpc := Memory.pcReg_packKeys hw s.keys
  refine ⟨_, step_advanceFrame hp hi, ?_, hpc⟩
  rw [startFrame_phase]
  exact congrArg (fun ip => Phase.executing ⟨ip, 0⟩) hpc

/-! ### The end of the loop -/

/-- Settles O24, by the three ends of a turn of the loop. -/
theorem onlyIdleOrBudgetEndsTheLoop : Obligations.OnlyIdleOrBudgetEndsTheLoop :=
  fun _ _ hp _ => ⟨fun hn => step_budget hp hn.not_lt, step_idle hp,
    fun hn hidle => ⟨_, step_copyAndJump hp hn (Bool.eq_false_iff.mp hidle), rfl⟩⟩

end Sys2Proof.Machine
end

section
/-! PROOFS. The read-out (R136, R137): the pages cell by cell, the loops of R130 that store them, and what FB and AB go on showing. -/

namespace Sys2Proof.Machine

/-! ### The pages, cell by cell -/

/-- Cell `y * 256 + x` of the frame page is the byte `FBAddr` names (R136). -/
theorem Memory.framePage_pixel (m : Memory) (y x : Byte) :
    Cells.get m.framePage (y.toNat * 256 + x.toNat) = m.read (fbAddr m.fbPage x y) := by
  have hcell : y.toNat * 256 + x.toNat < Config.fbBytes := by
    have := y.isLt; have := x.isLt; simp only [Config.fbBytes]; omega
  rw [m.get_framePage _ hcell, Memory.read, toNat_fbAddr, toNat_fbAddr]
  simp [Nat.add_assoc]

/-- Cell `i` of the audio block is the byte `AudAddr` names (R137). -/
theorem Memory.audioBlock_sample (m : Memory) (i : Byte) :
    Cells.get m.audioBlock i.toNat = m.read (audAddr m.audPage i) := by
  rw [m.get_audioBlock _ i.isLt, Memory.read, toNat_audAddr, toNat_audAddr]
  simp

/-- The end of a frame leaves `FB` and `AB` showing the memory (R136, R137). -/
theorem showsMemory_finishFrame (s : State) : ShowsMemory (finishFrame s) :=
  ⟨s.mem.framePage_pixel, s.mem.audioBlock_sample⟩

/-- Settles O25: what the end of a frame does to each field. -/
theorem readOutCopiesThePages : Obligations.ReadOutCopiesThePages := by
  intro s f why hp
  obtain ⟨hfb, hab⟩ := showsMemory_finishFrame s
  exact ⟨_, step_readOut hp, hfb, hab, rfl, rfl, rfl, rfl, rfl⟩

/-! ### What FB and AB go on showing -/

/-- `FB` and `AB` show the memory as long as none of the three changes. -/
theorem ShowsMemory.of_eq {s t : State} (h : ShowsMemory s) (hmem : t.mem = s.mem) (hfb : t.fb = s.fb)
    (hab : t.ab = s.ab) : ShowsMemory t := by
  simpa only [ShowsMemory, State.pixel, State.sample, hmem, hfb, hab] using h

/-- The commands that write no memory: `set_key` and the two that read (R163, R165, R166). -/
theorem beginCommand_mem {c : Command} (hload : ∀ bytes, c ≠ .load bytes) (hreset : c ≠ .reset)
    (hframe : c ≠ .advanceFrame) (s : State) : (beginCommand c s).mem = s.mem := by
  cases c with
  | load bytes => exact absurd rfl (hload bytes)
  | reset => exact absurd rfl hreset
  | advanceFrame => exact absurd rfl hframe
  | setKey index pressed => simp only [beginCommand, hostSetKey]; split_ifs <;> rfl
  | framebuffer => rfl
  | audioBlock => rfl

/-- Settles O27: the end of a frame shows the memory, and the commands left write neither memory nor the read-out. -/
theorem readOutShowsMemoryUntilItIsWritten : Obligations.ReadOutShowsMemoryUntilItIsWritten := by
  constructor
  · intro s t f why hp hst
    obtain rfl := Host.Outcome.next.inj ((step_readOut hp).symm.trans hst)
    exact showsMemory_finishFrame s
  · intro s t hp hshow hst hload hreset hframe
    cases hi : s.inbox with
    | nil =>
      obtain rfl := Host.Outcome.next.inj ((step_waiting_nil hp hi).symm.trans hst)
      exact hshow
    | cons c rest =>
      obtain rfl := Host.Outcome.next.inj ((step_waiting_cons hp hi).symm.trans hst)
      have hreset : c ≠ .reset := fun hc => hreset rest (hc ▸ hi)
      obtain ⟨hfb, hab⟩ := beginCommand_readOut hreset (s.setInbox rest)
      exact hshow.of_eq (beginCommand_mem (fun bytes hc => hload bytes rest (hc ▸ hi)) hreset
        (fun hc => hframe rest (hc ▸ hi)) _) hfb hab

/-! ### The loops of R130 over every cell -/

section StoreLoop

variable {α : Type} {size : Nat} {idx : α → Nat} {val : α → Byte} {l : List α} {c d : Cells}

/-- A loop of stores keeps the canonical form. -/
theorem Cells.wf_foldl_put (hc : Cells.wf size c = true) (hidx : ∀ a ∈ l, idx a < size) :
    Cells.wf size (l.foldl (fun acc a => Cells.put acc (idx a) (val a)) c) = true := by
  induction l generalizing c with
  | nil => exact hc
  | cons a l ih =>
    obtain ⟨ha, hl⟩ := List.forall_mem_cons.mp hidx
    exact ih (Cells.wf_put hc ha _) hl

/-- A loop that stores bytes of `d` leaves `d`'s byte at every index it reaches and keeps every other byte. -/
theorem Cells.get_foldl_put (hc : Cells.wf size c = true) (hidx : ∀ a ∈ l, idx a < size)
    (hval : ∀ a ∈ l, val a = Cells.get d (idx a)) (k : Nat) :
    Cells.get (l.foldl (fun acc a => Cells.put acc (idx a) (val a)) c) k =
      if k ∈ l.map idx then Cells.get d k else Cells.get c k := by
  induction l generalizing c with
  | nil => simp
  | cons a l ih =>
    obtain ⟨ha, hl⟩ := List.forall_mem_cons.mp hidx
    obtain ⟨hva, hvl⟩ := List.forall_mem_cons.mp hval
    rw [List.foldl_cons, ih (Cells.wf_put hc ha _) hl hvl, Cells.get_put hc, List.map_cons]
    by_cases hk : k ∈ l.map idx
    · rw [if_pos hk, if_pos (List.mem_cons_of_mem _ hk)]
    · by_cases hka : k = idx a
      · rw [if_neg hk, if_pos hka, hka, if_pos List.mem_cons_self, hva]
      · rw [if_neg hk, if_neg hka, if_neg (List.not_mem_cons_of_ne_of_not_mem hka hk)]

/-- A loop that stores `d`'s byte at every index below the size leaves `d`, whatever it started from. -/
theorem Cells.foldl_put_eq (hc : Cells.wf size c = true) (hd : Cells.wf size d = true)
    (hidx : ∀ a ∈ l, idx a < size) (hval : ∀ a ∈ l, val a = Cells.get d (idx a))
    (hall : ∀ k < size, k ∈ l.map idx) :
    l.foldl (fun acc a => Cells.put acc (idx a) (val a)) c = d := by
  have hwf : Cells.wf size (l.foldl (fun acc a => Cells.put acc (idx a) (val a)) c) = true :=
    Cells.wf_foldl_put hc hidx
  refine Cells.ext_of_get hwf hd fun k => ?_
  by_cases hk : k < size
  · rw [Cells.get_foldl_put hc hidx hval, if_pos (hall k hk)]
  · rw [Cells.get_of_ge hwf (Nat.not_lt.mp hk), Cells.get_of_ge hd (Nat.not_lt.mp hk)]

end StoreLoop

/-- R130's two loops for y and for x as one loop over the pairs. -/
theorem Block.readFb_eq_foldl (m : Memory) (fb : Cells) :
    Block.readFb m fb = ((List.range 256).product (List.range 256)).foldl (fun acc p =>
      Cells.put acc (p.1 * 256 + p.2) (m.read (fbAddr (m.read 5) (BitVec.ofNat 8 p.2) (BitVec.ofNat 8 p.1)))) fb := by
  simp only [Block.readFb, List.product, List.foldl_flatMap, List.foldl_map]

/-- R130's loops for y and x leave the frame page, whatever `FB` held (R136). -/
theorem Block.readFb_eq_framePage {m : Memory} {fb : Cells} (hw : m.wf = true)
    (hfb : Cells.wf Config.fbBytes fb = true) : Block.readFb m fb = m.framePage := by
  rw [Block.readFb_eq_foldl]
  have hrange : ∀ p ∈ (List.range 256).product (List.range 256), p.1 < 256 ∧ p.2 < 256 := fun p hmem => by
    simpa only [List.mem_range] using List.mem_product.mp hmem
  refine Cells.foldl_put_eq hfb (Memory.wf_framePage hw) (fun p hmem => ?_) (fun p hmem => ?_) (fun k hk => ?_)
  · obtain ⟨hy, hx⟩ := hrange p hmem
    simp only [Config.fbBytes]
    omega
  · obtain ⟨hy, hx⟩ := hrange p hmem
    have hpixel := m.framePage_pixel (BitVec.ofNat 8 p.1) (BitVec.ofNat 8 p.2)
    rw [BitVec.toNat_ofNat, BitVec.toNat_ofNat, Nat.mod_eq_of_lt hy, Nat.mod_eq_of_lt hx] at hpixel
    exact hpixel.symm
  · have hk : k < 65536 := hk
    refine List.mem_map.mpr ⟨(k / 256, k % 256), List.mem_product.mpr ?_, Nat.div_add_mod' k 256⟩
    simp only [List.mem_range]
    omega

/-- R130's loop for i leaves the audio block, whatever `AB` held (R137). -/
theorem Block.readAb_eq_audioBlock {m : Memory} {ab : Cells} (hw : m.wf = true)
    (hab : Cells.wf Config.audioBytes ab = true) : Block.readAb m ab = m.audioBlock := by
  refine Cells.foldl_put_eq (idx := id) hab (Memory.wf_audioBlock hw) (fun i hmem => List.mem_range.mp hmem)
    (fun i hmem => ?_) (fun k hk => ?_)
  · have hsample := m.audioBlock_sample (BitVec.ofNat 8 i)
    rw [BitVec.toNat_ofNat, Nat.mod_eq_of_lt (List.mem_range.mp hmem)] at hsample
    exact hsample.symm
  · rw [List.map_id]
    exact List.mem_range.mpr hk

/-- Settles O26: each loop leaves the page that the window takes at once. -/
theorem windowReadOutEqualsTheCellLoops : Obligations.WindowReadOutEqualsTheCellLoops :=
  fun _ _ _ hw hfb hab => ⟨(Block.readFb_eq_framePage hw hfb).symm, (Block.readAb_eq_audioBlock hw hab).symm⟩

end Sys2Proof.Machine
end

section
/-! PROOFS. Whole frames (R130, R134, R140): the atomic frame by its pages, the turns of its loop as steps, and the steps of a frame
as the atomic one. -/

namespace Sys2Proof.Machine

/-! ### The atomic frame -/

/-- The execution phase of a canonical memory leaves one. -/
theorem Block.wf_execution {b : Block} (hw : b.mem.wf = true) : b.execution.mem.wf = true :=
  Block.wf_loop _ _ (Memory.wf_packKeys hw b.keys)

/-- A whole frame leaves the pages of the memory its execution phase leaves, and keeps `K`. -/
theorem Block.advanceFrame_eq {b : Block} (hw : b.mem.wf = true) (hfb : Cells.wf Config.fbBytes b.fb = true)
    (hab : Cells.wf Config.audioBytes b.ab = true) :
    b.advanceFrame = ⟨b.execution.mem, b.keys, b.execution.mem.framePage, b.execution.mem.audioBlock⟩ := by
  have hwe := Block.wf_execution hw
  rw [Block.advanceFrame, Block.readFb_eq_framePage hwe hfb, Block.readAb_eq_audioBlock hwe hab]

/-- Settles O29: the execution phase reads memory and keys only, and the read-out overwrites `FB` and `AB`. -/
theorem frameDependsOnMemoryAndKeysOnly : Obligations.FrameDependsOnMemoryAndKeysOnly := by
  intro b b' hmem hkeys hw hfb hfb' hab hab'
  have hexec : b.execution = b'.execution := by simp only [Block.execution, hmem, hkeys]
  refine ⟨?_, rfl⟩
  rw [Block.advanceFrame_eq hw hfb hab, Block.advanceFrame_eq (hmem ▸ hw) hfb' hab', hexec, hkeys]

/-- The loop of R130 ends on the budget at N = 65536, and at an idle instruction below (R133, R101). -/
theorem Block.phaseOk_loop {left : Nat} (m : Memory) {f : Frame} (hn : f.n + left = Config.budget) :
    PhaseOk (Block.loop left m f).mem (.readOut (Block.loop left m f).frame (Block.loop left m f).why) := by
  induction left generalizing m f with
  | zero => exact hn
  | succ left ih =>
    rw [Block.loop_succ]
    split_ifs with hidle
    · have hlt : f.n < Config.budget := by omega
      exact ⟨hlt, hidle⟩
    · exact ih _ (Nat.succ_add_eq_add_succ f.n left ▸ hn)

/-! ### The turns of the loop as steps -/

/-- From `s`, where N is `n`, the loop makes `k` turns, none of them idle, and the step after them leads to `u`. -/
structure LoopRun (s u : State) (n k : Nat) : Prop where
  turns : ∀ j ≤ k, ∃ (v : State) (g : Frame), Steps j s v ∧ v.phase = .executing g ∧ g.n = n + j ∧
    (j < k → v.mem.idleAt g.ip = false)
  ends : Steps (k + 1) s u

/-- A loop that ends at once has made no turn. -/
theorem LoopRun.zero {s u : State} {f : Frame} (hp : s.phase = .executing f) (hst : step s = .next u) :
    LoopRun s u f.n 0 where
  turns j hj := by
    obtain rfl := Nat.le_zero.mp hj
    exact ⟨s, f, rfl, hp, rfl, nofun⟩
  ends := Steps.one hst

/-- A turn before the others makes one turn more. -/
theorem LoopRun.succ {s s' u : State} {f : Frame} {k : Nat} (hp : s.phase = .executing f)
    (hidle : s.mem.idleAt f.ip = false) (hst : step s = .next s') (h : LoopRun s' u (f.n + 1) k) :
    LoopRun s u f.n (k + 1) where
  turns j hj := by
    cases j with
    | zero => exact ⟨s, f, rfl, hp, rfl, fun _ => hidle⟩
    | succ j =>
      obtain ⟨v, g, hs, hpv, hn, hnot⟩ := h.turns j (Nat.le_of_succ_le_succ hj)
      exact ⟨v, g, ⟨s', hst, hs⟩, hpv, by omega, fun hjk => hnot (Nat.lt_of_succ_lt_succ hjk)⟩
  ends := ⟨s', hst, h.ends⟩

/-- The state in which the loop that ends in `e` leaves `s`, with the read-out to come. -/
def State.afterLoop (s : State) (e : Block.LoopEnd) : State :=
  (s.setMem e.mem).endExecution e.frame e.why

/-- The steps of the instruction loop make the turns of R130's loop and end as it does. -/
theorem loopRun_loop {left : Nat} {s : State} {f : Frame} (hp : s.phase = .executing f)
    (hn : f.n + left = Config.budget) :
    ∃ k, (Block.loop left s.mem f).frame.n = f.n + k ∧
      LoopRun s (s.afterLoop (Block.loop left s.mem f)) f.n k := by
  induction left generalizing s f with
  | zero =>
    have hfull : ¬ f.n < Config.budget := by omega
    exact ⟨0, rfl, LoopRun.zero hp (step_budget hp hfull)⟩
  | succ left ih =>
    have hlt : f.n < Config.budget := by omega
    rw [Block.loop_succ]
    split_ifs with hidle
    · exact ⟨0, rfl, LoopRun.zero hp (step_idle hp hlt hidle)⟩
    · obtain ⟨k, hk, hrun⟩ := ih
        (s := (s.setMem (s.mem.copyAt f.ip)).setPhase (.executing ⟨s.mem.fieldC f.ip, f.n + 1⟩)) rfl
        (Nat.succ_add_eq_add_succ f.n left ▸ hn)
      exact ⟨k + 1, hk.trans (Nat.succ_add_eq_add_succ f.n k),
        LoopRun.succ hp (Bool.eq_false_iff.mpr hidle) (step_copyAt hp hlt hidle) hrun⟩

/-! ### The steps of a frame -/

/-- A frame in steps, from `s` to its end in `t`: its start, `n` turns of the loop, the end of the loop in `u`, the read-out. -/
structure FrameRun (s u t : State) (n : Nat) : Prop where
  turns : ∀ j ≤ n, ∃ (v : State) (g : Frame), Steps (j + 1) s v ∧ v.phase = .executing g ∧ g.n = j ∧
    (j < n → v.mem.idleAt g.ip = false)
  ends : Steps (n + 2) s u
  done : Steps (n + 3) s t

/-- A frame runs as many turns as its execution phase counts, and the end of the loop is that of its execution phase (R130). -/
theorem frameRun_execution {s : State} {rest : List Command} (hp : s.phase = .waiting)
    (hi : s.inbox = .advanceFrame :: rest) :
    FrameRun s ((s.setInbox rest).afterLoop s.block.execution)
      (finishFrame ((s.setInbox rest).afterLoop s.block.execution)) s.block.execution.frame.n := by
  obtain ⟨k, hk, hrun⟩ := loopRun_loop (left := Config.budget) (startFrame_phase (s.setInbox rest)) (Nat.zero_add _)
  have hstart := step_advanceFrame hp hi
  have hcount : s.block.execution.frame.n = k := hk.trans (Nat.zero_add k)
  rw [hcount]
  have hends : Steps (k + 2) s ((s.setInbox rest).afterLoop s.block.execution) := ⟨_, hstart, hrun.ends⟩
  refine ⟨fun j hj => ?_, hends, hends.trans (Steps.one (step_readOut rfl))⟩
  obtain ⟨v, g, hs, hpv, hn, hnot⟩ := hrun.turns j hj
  exact ⟨v, g, ⟨_, hstart, hs⟩, hpv, hn.trans (Nat.zero_add j), hnot⟩

/-- Between the first and the last step of a frame the block is never waiting. -/
theorem FrameRun.not_waiting {s u t v : State} {n j : Nat} (h : FrameRun s u t n) {f : Frame} {why : EndReason}
    (hu : u.phase = .readOut f why) (hj : 0 < j) (hjn : j < n + 3) (hs : Steps j s v) : v.phase ≠ .waiting := by
  obtain ⟨j, rfl⟩ := Nat.exists_eq_succ_of_ne_zero hj.ne'
  by_cases hturn : j ≤ n
  · obtain ⟨w, g, hsw, hpw, -⟩ := h.turns j hturn
    rw [hs.unique hsw, hpw]
    nofun
  · obtain rfl : j = n + 1 := by omega
    rw [hs.unique h.ends, hu]
    nofun

/-- The execution phase of a frame ends in a way the phase can have. -/
theorem Block.phaseOk_execution (b : Block) :
    PhaseOk b.execution.mem (.readOut b.execution.frame b.execution.why) :=
  Block.phaseOk_loop _ (Nat.zero_add _)

/-- A loop that has ended has executed at most 65536 instructions (R134). -/
theorem PhaseOk.n_le {m : Memory} {f : Frame} {why : EndReason} (h : PhaseOk m (.readOut f why)) :
    f.n ≤ Config.budget := by
  cases why with
  | budget => exact Nat.le_of_eq h
  | idle => exact Nat.le_of_lt h.1

/-- A loop ends on the budget exactly at 65536 instructions, and idle exactly at an idle instruction below (R134). -/
theorem PhaseOk.reason_iff {m : Memory} {f : Frame} {why : EndReason} (h : PhaseOk m (.readOut f why)) :
    (why = .budget ↔ f.n = Config.budget) ∧ (why = .idle ↔ f.n < Config.budget ∧ m.idleAt f.ip = true) := by
  cases why with
  | budget =>
    have hn : f.n = Config.budget := h
    simp [hn]
  | idle =>
    obtain ⟨hn, hidle⟩ : f.n < Config.budget ∧ m.idleAt f.ip = true := h
    simp [hn, hn.ne, hidle]

/-- Settles O28: the steps of the frame, with the end its execution phase has. -/
theorem frameExecutesAtMostItsBudget : Obligations.FrameExecutesAtMostItsBudget := by
  intro s rest hp hi
  obtain ⟨hbudget, hidle⟩ := s.block.phaseOk_execution.reason_iff
  obtain ⟨hturns, hends, hdone⟩ := frameRun_execution hp hi
  exact ⟨_, s.block.execution.frame, s.block.execution.why, _, _, s.block.phaseOk_execution.n_le, hturns, hends,
    rfl, rfl, hbudget, hidle, hdone, rfl, rfl, rfl⟩

/-- Settles O31: the frame in steps ends with the pages of its execution phase, as the atomic one does. -/
theorem frameStepsRefineTheAtomicFrame : Obligations.FrameStepsRefineTheAtomicFrame := by
  intro s rest hinv hp hi
  have hrun := frameRun_execution hp hi
  have hblock := Block.advanceFrame_eq (b := s.block) hinv.mem hinv.fb hinv.ab
  have hsteps := Nat.add_le_add_right s.block.phaseOk_execution.n_le 3
  exact ⟨_, _, hsteps, hrun.done, hblock.symm, rfl, rfl, rfl, fun j u hj hjk hs => hrun.not_waiting rfl hj hjk hs⟩

end Sys2Proof.Machine
end

section
/-! PROOFS. The host's commands (R160 to R166): what a load, a `set_key` and the two reads do, and a whole inbox run as the atomic
commands of the block. And the colour cube, outside the block (R170). -/

namespace Sys2Proof.Machine

/-! ### load -/

/-- A load of at most 2^24 bytes stores its bytes from address 0 up and returns `Ok` (R161). -/
theorem hostLoad_of_le {bytes : List Byte} (hl : bytes.length ≤ Config.memBytes) (s : State) :
    hostLoad bytes s = (s.setMem (Cells.putBytes s.mem 0 bytes)).respond .ok :=
  if_neg (Nat.not_lt.mpr hl)

/-- After bytes are stored from address 0 up, each address below their number reads its byte and every other reads as before. -/
theorem Memory.read_putBytes_zero {m : Memory} (hw : m.wf = true) {bytes : List Byte}
    (hl : bytes.length ≤ Config.memBytes) (a : Addr) :
    Memory.read (Cells.putBytes m 0 bytes) a =
      if h : a.toNat < bytes.length then bytes[a.toNat] else m.read a := by
  have hfit : 0 + bytes.length ≤ Config.memBytes := by omega
  rw [Memory.read, Cells.get_putBytes bytes hw hfit]
  by_cases ha : a.toNat < bytes.length
  · simp [ha]
  · simp [ha, Memory.read]

/-- Settles O34: the load stores its bytes from address 0 up and touches no other field. -/
theorem loadWritesAPrefix : Obligations.LoadWritesAPrefix := by
  intro s bytes rest hw hp hi hl
  have hst : step s = .next (hostLoad bytes (s.setInbox rest)) := step_waiting_cons hp hi
  rw [hostLoad_of_le hl] at hst
  exact ⟨_, hst, Memory.read_putBytes_zero hw hl, rfl, rfl, rfl, hp, rfl, rfl⟩

/-! ### set_key -/

/-- `set_key` with an index in 0..15 stores the flag of that index and returns `Ok` (R163). -/
theorem hostSetKey_fin (k : Fin 16) (pressed : Bool) (s : State) :
    hostSetKey (k.val : Int) pressed s = (s.setKeys (s.keys.setIfInBounds k pressed)).respond .ok :=
  if_pos (by omega)

/-- `set_key` with any other index is rejected (R163). -/
theorem hostSetKey_of_invalid {index : Int} (hindex : ¬ (0 ≤ index ∧ index < 16)) (pressed : Bool) (s : State) :
    hostSetKey index pressed s = s.respond (.err .invalidKeyIndex) :=
  if_neg hindex

/-- Settles O36: a valid index sets one flag of the vector, any other is answered with the error alone. -/
theorem setKeySetsOneFlag : Obligations.SetKeySetsOneFlag := by
  constructor
  · intro s k pressed rest hp hi
    have hst : step s = .next (hostSetKey k.val pressed (s.setInbox rest)) := step_waiting_cons hp hi
    rw [hostSetKey_fin] at hst
    refine ⟨_, hst, fun j => ?_, fun hsame => ?_, rfl, rfl, rfl, hp, rfl, rfl⟩
    · simp [Vector.getElem_setIfInBounds, Fin.ext_iff, eq_comm]
    · subst hsame
      exact Vector.ext fun j hj => by simp +contextual [Vector.getElem_setIfInBounds]
  · intro s index pressed rest hp hi hindex
    have hst : step s = .next (hostSetKey index pressed (s.setInbox rest)) := step_waiting_cons hp hi
    rw [hostSetKey_of_invalid hindex] at hst
    exact ⟨_, hst, rfl, rfl⟩

/-! ### framebuffer and audio_block -/

/-- Rows of length `n`, read one after another, are the cells in index order. -/
theorem flatMap_range_rows {α : Type} (cell : Nat → α) (rows n : Nat) :
    ((List.range rows).flatMap fun y => (List.range n).map fun x => cell (y * n + x)) =
      (List.range (rows * n)).map cell := by
  induction rows with
  | zero => simp
  | succ rows ih =>
    rw [List.range_succ, List.flatMap_append, ih, Nat.succ_mul, List.range_add, List.map_append, List.map_map]
    simp [Function.comp_def]

/-- The bytes `framebuffer` returns are the cells of `FB` in index order (R165). -/
theorem framebufferBytes_eq (fb : Cells) : framebufferBytes fb = (List.range 65536).map (Cells.get fb) :=
  flatMap_range_rows (Cells.get fb) 256 256

/-- Settles O38: the bytes are the cells of `FB` in index order, and pixel (y, x) has the index y * 256 + x. -/
theorem framebufferReturnsRowsInOrder : Obligations.FramebufferReturnsRowsInOrder := by
  intro s rest hp hi
  refine ⟨framebufferBytes s.fb, step_waiting_cons hp hi, ?_, fun y x => ?_⟩
  · rw [framebufferBytes_eq, List.length_map, List.length_range]
  · have hindex : y.toNat * 256 + x.toNat < 65536 := by omega
    rw [framebufferBytes_eq, List.getElem?_map, List.getElem?_range hindex]
    rfl

/-- Settles O39: the bytes are the samples of `AB` in index order. -/
theorem audioBlockReturnsSamplesInOrder : Obligations.AudioBlockReturnsSamplesInOrder := by
  intro s rest hp hi
  refine ⟨audioBytes s.ab, step_waiting_cons hp hi, ?_, fun i => ?_⟩
  · rw [audioBytes, List.length_map, List.length_range]
  · rw [audioBytes, List.getElem?_map, List.getElem?_range i.isLt]
    rfl

/-! ### A whole inbox -/

/-- `t` is a state in which the command `c`, begun in `s`, is done as the atomic command does it, with `rest` yet to begin. -/
structure CommandDone (s t : State) (c : Command) (rest : List Command) : Prop where
  phase : t.phase = .waiting
  inbox : t.inbox = rest
  block : t.block = (s.block.command c).1
  outbox : t.outbox = (s.block.command c).2 :: s.outbox

/-- Every command but `advance_frame` is done as it begins (R160). -/
theorem commandDone_beginCommand {c : Command} (hc : c ≠ .advanceFrame) {s : State} (hp : s.phase = .waiting)
    (rest : List Command) : CommandDone s (beginCommand c (s.setInbox rest)) c rest := by
  have hphase : (beginCommand c (s.setInbox rest)).phase = .waiting := (beginCommand_phase hc _).trans hp
  cases c with
  | advanceFrame => exact absurd rfl hc
  | load bytes =>
    by_cases hl : Config.memBytes < bytes.length
    · refine ⟨hphase, ?_, ?_, ?_⟩ <;> simp [beginCommand, hostLoad, Block.command, State.block, hl]
    · refine ⟨hphase, ?_, ?_, ?_⟩ <;> simp [beginCommand, hostLoad, Block.command, State.block, hl]
  | setKey index pressed =>
    by_cases hindex : 0 ≤ index ∧ index < 16
    · refine ⟨hphase, ?_, ?_, ?_⟩ <;> simp [beginCommand, hostSetKey, Block.command, State.block, hindex]
    · refine ⟨hphase, ?_, ?_, ?_⟩ <;> simp [beginCommand, hostSetKey, Block.command, State.block, hindex]
  | reset => exact ⟨hphase, rfl, rfl, rfl⟩
  | framebuffer => exact ⟨hphase, rfl, rfl, rfl⟩
  | audioBlock => exact ⟨hphase, rfl, rfl, rfl⟩

/-- From a waiting state the next command is done in at most 65539 steps: a frame as its steps refine the atomic one, any other in one. -/
theorem steps_commandDone {s : State} {c : Command} {rest : List Command} (hinv : Inv s) (hp : s.phase = .waiting)
    (hi : s.inbox = c :: rest) : ∃ k t, k ≤ 65539 ∧ Steps k s t ∧ CommandDone s t c rest := by
  by_cases hc : c = .advanceFrame
  · subst hc
    obtain ⟨k, t, hk, hs, hblock, hphase, hinbox, houtbox, -⟩ := frameStepsRefineTheAtomicFrame s rest hinv hp hi
    exact ⟨k, t, hk, hs, hphase, hinbox, hblock, houtbox⟩
  · exact ⟨1, _, by omega, Steps.one (step_waiting_cons hp hi), commandDone_beginCommand hc hp rest⟩

/-- A run of any number of steps keeps the invariant. -/
theorem Inv.steps {k : Nat} {s t : State} (h : Inv s) (hs : Steps k s t) : Inv t := by
  induction k generalizing s with
  | zero => exact hs ▸ h
  | succ k ih =>
    obtain ⟨u, hst, hs⟩ := hs
    exact ih (everyStepKeepsTheInvariant s u h hst) hs

/-- Settles O32, by induction on the inbox: each command is done as its atomic command, and the next begins from there. -/
theorem scriptRunsAsAtomicCommands : Obligations.ScriptRunsAsAtomicCommands := by
  intro s hinv hp
  induction hi : s.inbox generalizing s with
  | nil => exact ⟨0, s, Nat.le_refl 0, rfl, hp, hi, rfl, rfl⟩
  | cons c rest ih =>
    obtain ⟨k, u, hk, hsu, hdone⟩ := steps_commandDone hinv hp hi
    obtain ⟨k', t, hk', hut, hphase, hinbox, hrun⟩ := ih u (hinv.steps hsu) hdone.phase hdone.inbox
    rw [hdone.block, hdone.outbox] at hrun
    refine ⟨k + k', t, ?_, hsu.trans hut, hphase, hinbox, hrun⟩
    rw [List.length_cons]
    omega

/-! ### The colour cube -/

theorem shade_of_lt {v : Byte} (hv : v.toNat < 216) :
    shade v = .levels (v.toNat / 36 % 6) (v.toNat / 6 % 6) (v.toNat % 6) :=
  if_pos hv

theorem shade_of_ge {v : Byte} (hv : 216 ≤ v.toNat) : shade v = .black :=
  if_neg (Nat.not_lt.mpr hv)

/-- Below 216 the three levels are the digits of the value to the base 6, so they determine it. -/
theorem shade_injective_of_lt {v w : Byte} (hv : v.toNat < 216) (hw : w.toNat < 216) (h : shade v = shade w) :
    v = w := by
  rw [shade_of_lt hv, shade_of_lt hw, Shade.levels.injEq] at h
  obtain ⟨hr, hg, hb⟩ := h
  refine BitVec.eq_of_toNat_eq ?_
  omega

/-- Settles O49: the formula below 216, its three digits to the base 6, and black from there up. -/
theorem colourCubeIsOneToOne : Obligations.ColourCubeIsOneToOne :=
  ⟨fun _ hv => ⟨shade_of_lt hv, fun _ hw h => shade_injective_of_lt hv hw h⟩, fun _ hv => shade_of_ge hv⟩

end Sys2Proof.Machine
end

section
/-! PROOFS. No exceptions (R190 to R200): every step goes on, a rejected command changes nothing but the queue and the
responses, and with no command the block waits. -/

namespace Sys2Proof.Machine

/-! ### Rejected commands -/

/-- A load of more than 2^24 bytes is rejected whole (C2, R193). -/
theorem hostLoad_of_gt {bytes : List Byte} (hl : Config.memBytes < bytes.length) (s : State) :
    hostLoad bytes s = s.respond (.err .invalidInputSize) :=
  if_pos hl

/-- Settles O35: either command is answered with its error, on the state whose inbox has lost that command. -/
theorem hostErrorsChangeNothing : Obligations.HostErrorsChangeNothing := by
  constructor
  · intro s bytes rest hp hi hl
    have hst : step s = .next (hostLoad bytes (s.setInbox rest)) := step_waiting_cons hp hi
    rw [hst, hostLoad_of_gt hl]
    rfl
  · intro s index pressed rest hp hi hindex
    have hst : step s = .next (hostSetKey index pressed (s.setInbox rest)) := step_waiting_cons hp hi
    rw [hst, hostSetKey_of_invalid (by omega)]
    rfl

/-! ### No fault and no refusal -/

/-- Settles O40: the step begins no command. -/
theorem blockWaitsForTheHost : Obligations.BlockWaitsForTheHost :=
  fun _ => step_waiting_nil

/-- Settles O41, by the phase: each phase's step answers a next state, whatever the memory holds. -/
theorem everyStepGoesOn : Obligations.EveryStepGoesOn := by
  intro s
  cases hp : s.phase with
  | waiting =>
    cases hi : s.inbox with
    | nil => exact ⟨_, step_waiting_nil hp hi⟩
    | cons c rest => exact ⟨_, step_waiting_cons hp hi⟩
  | executing f => exact ⟨_, step_executing hp⟩
  | readOut f why => exact ⟨_, step_readOut hp⟩

end Sys2Proof.Machine
end

section
/-! PROOFS. The state after construction and after `reset` (R220, R221), and the first frame of an empty machine (R222). -/

namespace Sys2Proof.Machine

/-! ### The reset values -/

/-- In the empty memory every three-byte value is 0. -/
theorem Memory.addr24_nil (a : Addr) : Memory.addr24 [] a = 0 := by
  simp only [Memory.addr24, Memory.read, Cells.get_nil]
  rfl

/-- A block in its construction state reads 0x00 in every byte, pixel and sample, and has every key released (R220). -/
theorem reads_zero_of_block_eq_reset {s : State} (h : s.block = State.reset.block) :
    (∀ a : Addr, s.mem.read a = 0) ∧ (∀ k : Fin 16, s.keys[k] = false) ∧ (∀ y x : Byte, s.pixel y x = 0) ∧
      ∀ i : Byte, s.sample i = 0 := by
  obtain ⟨hmem, hkeys, hfb, hab⟩ := Block.mk.inj h
  refine ⟨fun a => ?_, fun k => ?_, fun y x => ?_, fun i => ?_⟩
  · rw [hmem]
    exact Cells.get_nil _
  · rw [hkeys]
    exact Vector.getElem_replicate k.isLt
  · rw [State.pixel, hfb]
    exact Cells.get_nil _
  · rw [State.sample, hab]
    exact Cells.get_nil _

/-- Settles O42: the cells and the keys by the construction state, the three registers as bytes of the empty memory. -/
theorem resetStateIsAllZero : Obligations.ResetStateIsAllZero := by
  obtain ⟨hmem, hkeys, hpixel, hsample⟩ := reads_zero_of_block_eq_reset (s := State.reset) rfl
  exact ⟨hmem, hkeys, hpixel, hsample, Memory.addr24_nil 2, hmem 5, rfl, rfl, rfl, rfl⟩

/-- Settles O43: empty cells are canonical for every size, and between frames there is nothing to hold of the phase. -/
theorem resetMeetsTheInvariant : Obligations.ResetMeetsTheInvariant :=
  ⟨Memory.wf_nil, Cells.wf_nil _, Cells.wf_nil _, trivial⟩

/-! ### The reset command -/

/-- `reset` replaces the whole block by the construction state (R221). -/
theorem hostReset_block (s : State) : (hostReset s).block = State.reset.block := rfl

/-- Settles O37: the one step of `reset` leaves the construction state, which reads zero everywhere. -/
theorem resetClearsTheBlock : Obligations.ResetClearsTheBlock := by
  intro s rest hp hi
  have hst : step s = .next (hostReset (s.setInbox rest)) := step_waiting_cons hp hi
  have hblock := hostReset_block (s.setInbox rest)
  obtain ⟨hmem, hkeys, hpixel, hsample⟩ := reads_zero_of_block_eq_reset hblock
  exact ⟨_, hst, hmem, hkeys, hpixel, hsample, hblock, hp, rfl, rfl⟩

/-! ### The first frame of an empty machine -/

/-- With every key released a KEYS byte is 0x00 (R27). -/
theorem keyByte_released (base : Nat) : keyByte State.reset.keys base = 0 := by
  refine BitVec.eq_of_getLsbD_eq fun j hj => ?_
  have hflag : State.reset.keys[base + j]?.getD false = false := by
    rw [State.reset, Vector.getElem?_replicate]
    split_ifs <;> rfl
  rw [getLsbD_keyByte _ _ hj, hflag, BitVec.ofNat_eq_ofNat, BitVec.getLsbD_zero]

/-- Packing released keys leaves the empty memory empty: it stores 0x00 twice. -/
theorem Memory.packKeys_reset : State.reset.mem.packKeys State.reset.keys = [] := by
  rw [Memory.packKeys, keyByte_released, keyByte_released]
  rfl

/-- From reset a frame starts at address 0 with nothing else changed (R222). -/
theorem startFrame_reset : startFrame State.reset = State.reset.setPhase (.executing ⟨0, 0⟩) := by
  rw [startFrame, Memory.packKeys_reset]
  rfl

/-- The all-zero instruction is idle at address 0 (R222). -/
theorem Memory.idleAt_nil_zero : Memory.idleAt [] 0 = true :=
  (Memory.idleAt_iff [] 0).mpr ⟨(Memory.addr24_nil 0).trans (Memory.addr24_nil 3).symm, Memory.addr24_nil 6⟩

/-- The read-out of the empty memory leaves `FB` and `AB` as after reset (R222). -/
theorem finishFrame_reset (p : Phase) :
    finishFrame (State.reset.setPhase p) = State.reset.respond .ok := rfl

/-- Settles O33, step by step: the frame starts at address 0, is idle there, and reads out empty pages. -/
theorem firstFrameOfAnEmptyMachineIsBlank : Obligations.FirstFrameOfAnEmptyMachineIsBlank := by
  have hstart : step ({ State.reset with inbox := [.advanceFrame] } : State) =
      .next (State.reset.setPhase (.executing ⟨0, 0⟩)) :=
    (step_advanceFrame rfl rfl).trans (congrArg _ startFrame_reset)
  have hidle : step (State.reset.setPhase (.executing ⟨0, 0⟩)) =
      .next (State.reset.setPhase (.readOut ⟨0, 0⟩ .idle)) :=
    step_idle rfl (by decide) Memory.idleAt_nil_zero
  have hreadOut : step (State.reset.setPhase (.readOut ⟨0, 0⟩ .idle)) =
      .next ({ State.reset with outbox := [.ok] } : State) :=
    (step_readOut rfl).trans (congrArg _ (finishFrame_reset _))
  exact ⟨_, hstart, _, hidle, _, hreadOut, rfl⟩

end Sys2Proof.Machine
end

section
/-! PROOFS. The words the spec writes out as bytes (P2, P4, P7, S3), and the fetch under each value of `FETCH_OVERRUN` (D2). -/

namespace Sys2Proof.Machine

/-! ### The words written out -/

/-- Settles O4: each field is its three bytes joined, and those are the spec's addresses. -/
theorem wordsOfTheSpecDecode : Obligations.WordsOfTheSpecDecode :=
  ⟨decode_nine_cons 0x0A 0x00 0x00 0x05 0x00 0x00 0x00 0x00 0x11 [],
    decode_nine_cons 0x00 0x03 0x00 0x00 0x01 0x08 0x00 0x01 0x10 [],
    decode_nine_cons 0x0A 0x00 0x00 0x05 0x00 0x00 0x00 0xFF 0xFF [],
    decode_nine_cons 0x00 0x00 0x00 0x00 0x00 0x00 0x00 0x00 0x00 []⟩

/-! ### The fetch under each value of the parameter -/

/-- With `wrap` a fetch gives the word at every IP (D2). -/
theorem fetch_wrap (m : Memory) (ip : Addr) : fetch .wrap m ip = .ok (m.fetchWord ip) := rfl

/-- The last byte of a fetch lies inside memory exactly for IP below 0xFFFFF8. -/
theorem fetch_last_lt_memBytes_iff (ip : Addr) : ip.toNat + 8 < Config.memBytes ↔ ip.toNat < 0xFFFFF8 := by
  rw [Config.memBytes]
  omega

/-- With `fault` a fetch below 0xFFFFF8 gives the word (D2). -/
theorem fetch_fault_of_lt (m : Memory) {ip : Addr} (h : ip.toNat < 0xFFFFF8) :
    fetch .fault m ip = .ok (m.fetchWord ip) :=
  if_pos ((fetch_last_lt_memBytes_iff ip).mpr h)

/-- With `fault` a fetch from 0xFFFFF8 up faults (D2). -/
theorem fetch_fault_of_le (m : Memory) {ip : Addr} (h : 0xFFFFF8 ≤ ip.toNat) :
    fetch .fault m ip = .error (.fetchOverrun ip) :=
  if_neg fun hlt => Nat.not_lt.mpr h ((fetch_last_lt_memBytes_iff ip).mp hlt)

/-- Settles O12: `wrap` never faults, and `fault` does where the last of the nine bytes passes the top of memory. -/
theorem fetchOverrunParameter : Obligations.FetchOverrunParameter :=
  ⟨fetch_wrap, fun m _ => fetch_fault_of_le m, fun m _ => fetch_fault_of_lt m, rfl⟩

end Sys2Proof.Machine
end
